-- ==== Sys2Proof/Word.lean ====
section
/-! DEFINITION. The bit-vector types of the machine: the widths that 00_scope.md R6 gives registers, memory bytes,
instruction words and instruction fields. -/

namespace Sys2Proof

/-- Half a byte: the family nibble and the `n` field of an instruction word (30_encoding.md R41). -/
abbrev Nibble := BitVec 4

/-- 8 bits: a memory byte, a general register, a timer, the immediate `nn` (00_scope.md R6: `REG_W`, `TIMER_W`). -/
abbrev Byte := BitVec 8

/-- 12 bits: the address field `nnn` of an instruction and the address of the load port (00_scope.md R5, R6). -/
abbrev Addr12 := BitVec 12

/-- 16 bits: an instruction word, `pc`, `I`, a stack entry (00_scope.md R6: `PC_W`, `I_W`, `INSN_LEN`). -/
abbrev Word := BitVec 16

end Sys2Proof
end

