-- ==== Sys2Proof/Syntax.lean ====
section
/-! DEFINITION. The instructions: one constructor per row of spec/opcode_table.json, in the table's order. -/

namespace Sys2Proof

/-- A general register number. 30_encoding.md R43: "`x` and `y` are register numbers `0..15`; every value is a valid
register, so no register-number field can be illegal". -/
abbrev Reg := Fin 16

/-- The 34 instructions of 30_encoding.md R44. A field the pattern names is an operand here; the low nibble of `5xy0`
and `9xy0`, which the decoder does not examine (R45), is none. `8xy6` and `8xyE` keep the field `y` that their
execution ignores (41_alu.md R66, R68). -/
inductive Instr where
  /-- `00E0`, CLS: clear the framebuffer (43_display.md R78). -/
  | cls
  /-- `00EE`, RET: return from subroutine (40_control_flow.md R49). -/
  | ret
  /-- `1nnn`, JP nnn: jump (R50). -/
  | jp (nnn : Addr12)
  /-- `2nnn`, CALL nnn: call subroutine (R51). -/
  | call (nnn : Addr12)
  /-- `3xnn`, SE Vx, nn: skip if equal (R52). -/
  | seImm (x : Reg) (nn : Byte)
  /-- `4xnn`, SNE Vx, nn: skip if different (R53). -/
  | sneImm (x : Reg) (nn : Byte)
  /-- `5xy0`, SE Vx, Vy: skip if registers equal (R54). -/
  | seReg (x y : Reg)
  /-- `6xnn`, LD Vx, nn: load immediate (41_alu.md R58). -/
  | ldImm (x : Reg) (nn : Byte)
  /-- `7xnn`, ADD Vx, nn: add immediate, no flag (R59). -/
  | addImm (x : Reg) (nn : Byte)
  /-- `8xy0`, LD Vx, Vy: copy (R60). -/
  | ldReg (x y : Reg)
  /-- `8xy1`, OR Vx, Vy (R61). -/
  | or (x y : Reg)
  /-- `8xy2`, AND Vx, Vy (R62). -/
  | and (x y : Reg)
  /-- `8xy3`, XOR Vx, Vy (R63). -/
  | xor (x y : Reg)
  /-- `8xy4`, ADD Vx, Vy: add, `VF` = carry (R64). -/
  | addReg (x y : Reg)
  /-- `8xy5`, SUB Vx, Vy: `Vx - Vy`, `VF` = not borrow (R65). -/
  | sub (x y : Reg)
  /-- `8xy6`, SHR Vx: shift right, `VF` = bit shifted out (R66). -/
  | shr (x y : Reg)
  /-- `8xy7`, SUBN Vx, Vy: `Vy - Vx`, `VF` = not borrow (R67). -/
  | subn (x y : Reg)
  /-- `8xyE`, SHL Vx: shift left, `VF` = bit shifted out (R68). -/
  | shl (x y : Reg)
  /-- `9xy0`, SNE Vx, Vy: skip if registers differ (40_control_flow.md R55). -/
  | sneReg (x y : Reg)
  /-- `Annn`, LD I, nnn: load index (42_index_memory.md R71). -/
  | ldI (nnn : Addr12)
  /-- `Bnnn`, JP V0, nnn: jump to `nnn + V0` (40_control_flow.md R56). -/
  | jpV0 (nnn : Addr12)
  /-- `Cxnn`, RND Vx, nn: random byte under mask (41_alu.md R70). -/
  | rnd (x : Reg) (nn : Byte)
  /-- `Dxyn`, DRW Vx, Vy, n: draw an `n`-row sprite (43_display.md R79). `n` is a count of rows, so a `Nat`; its field
  has four bits (30_encoding.md R43), which `Instr.wellFormed` checks. -/
  | drw (x y : Reg) (n : Nat)
  /-- `Ex9E`, SKP Vx: skip if key held (44_keypad_timers.md R81). -/
  | skp (x : Reg)
  /-- `ExA1`, SKNP Vx: skip if key not held (R82). -/
  | sknp (x : Reg)
  /-- `Fx07`, LD Vx, DT: read the delay timer (R83). -/
  | ldVxDt (x : Reg)
  /-- `Fx0A`, LD Vx, K: wait for a key (R84). -/
  | ldVxK (x : Reg)
  /-- `Fx15`, LD DT, Vx: set the delay timer (R85). -/
  | ldDtVx (x : Reg)
  /-- `Fx18`, LD ST, Vx: set the sound timer (R86). -/
  | ldStVx (x : Reg)
  /-- `Fx1E`, ADD I, Vx: add to the index (42_index_memory.md R72). -/
  | addI (x : Reg)
  /-- `Fx29`, LD F, Vx: address of a font glyph (R73). -/
  | ldF (x : Reg)
  /-- `Fx33`, LD B, Vx: store the three decimal digits (R74). -/
  | ldB (x : Reg)
  /-- `Fx55`, LD [I], Vx: store `V0..Vx` (R75). -/
  | stRegs (x : Reg)
  /-- `Fx65`, LD Vx, [I]: load `V0..Vx` (R76). -/
  | ldRegs (x : Reg)
deriving DecidableEq, Repr

end Sys2Proof
end

