-- ==== Sys2Proof/WellFormed.lean ====
section
/-! DEFINITION. Which terms of `Instr` stand for an instruction of this hardware. -/

namespace Sys2Proof

/-- The row count of a `Dxyn` fits its four-bit field. 30_encoding.md R43: "`n` in `Dxyn` is a row count `0..15`". -/
def rowCountFits (n : Nat) : Bool := n ≤ 15

/-- A term is well formed when every operand fits its field. Register numbers, `nn` and `nnn` fit by their types (R43:
"no register-number field can be illegal"), so the row count of `Dxyn` is the one check. -/
def Instr.wellFormed (i : Instr) : Bool :=
  match i with
  | .drw _ _ n => rowCountFits n
  | .cls | .ret => true
  | .jp _ | .call _ | .ldI _ | .jpV0 _ => true
  | .seImm _ _ | .sneImm _ _ | .ldImm _ _ | .addImm _ _ | .rnd _ _ => true
  | .seReg _ _ | .sneReg _ _ => true
  | .ldReg _ _ | .or _ _ | .and _ _ | .xor _ _ | .addReg _ _ | .sub _ _ | .shr _ _ | .subn _ _ | .shl _ _ => true
  | .skp _ | .sknp _ | .ldVxDt _ | .ldVxK _ | .ldDtVx _ | .ldStVx _ => true
  | .addI _ | .ldF _ | .ldB _ | .stRegs _ | .ldRegs _ => true

end Sys2Proof
end

