-- ==== Sys2Proof/Decode.lean ====
section
/-! DEFINITION. The decoder (30_encoding.md R40, R41, R44), total and rejecting by name, and after it the encoder and
the opcode table, each written from the encodings of 30_encoding.md sections 2 and 4. -/

namespace Sys2Proof

/-! ### Words and fields -/

/-- Big-endian assembly of an instruction word: the byte at the lower address is the more significant (20_memory.md
R25). -/
def wordOfBytes (hi lo : Byte) : Word := hi ++ lo

/-- The byte of a word that lies at the lower address (R25: `op[15:8] = mem[pc0]`). -/
def highByte (w : Word) : Byte := w.extractLsb' 8 8

/-- The byte of a word that lies at the higher address (R25: `op[7:0] = mem[pc0+1]`). -/
def lowByte (w : Word) : Byte := w.extractLsb' 0 8

/-- The family nibble `f`, `op[15:12]` (30_encoding.md R41). -/
def fieldF (w : Word) : Nibble := w.extractLsb' 12 4

/-- The register number `x`, `op[11:8]` (R41). -/
def fieldX (w : Word) : Reg := (w.extractLsb' 8 4).toFin

/-- The register number `y`, `op[7:4]` (R41). -/
def fieldY (w : Word) : Reg := (w.extractLsb' 4 4).toFin

/-- The nibble `n`, `op[3:0]` (R41). -/
def fieldN (w : Word) : Nibble := w.extractLsb' 0 4

/-- The immediate byte `nn`, `op[7:0]` (R41). -/
def fieldNN (w : Word) : Byte := w.extractLsb' 0 8

/-- The address `nnn`, `op[11:0]` (R41). -/
def fieldNNN (w : Word) : Addr12 := w.extractLsb' 0 12

/-! ### Decoding -/

/-- Why bytes are no instruction. -/
inductive DecodeReject where
  /-- The word matches no row of the opcode table; 30_encoding.md R47 says how it executes. -/
  | unmatched (w : Word)
  /-- Fewer than the two bytes of an instruction (R40). -/
  | tooShort
deriving DecidableEq, Repr

/-- Family 0: all sixteen bits are compared (R44). -/
def decodeFamily0 (w : Word) : Except DecodeReject Instr :=
  if w = 0x00E0#16 then .ok .cls
  else if w = 0x00EE#16 then .ok .ret
  else .error (.unmatched w)

/-- Family 8: the low nibble selects the operation (R44). -/
def decodeFamily8 (w : Word) : Except DecodeReject Instr :=
  match fieldN w with
  | 0x0#4 => .ok (.ldReg (fieldX w) (fieldY w))
  | 0x1#4 => .ok (.or (fieldX w) (fieldY w))
  | 0x2#4 => .ok (.and (fieldX w) (fieldY w))
  | 0x3#4 => .ok (.xor (fieldX w) (fieldY w))
  | 0x4#4 => .ok (.addReg (fieldX w) (fieldY w))
  | 0x5#4 => .ok (.sub (fieldX w) (fieldY w))
  | 0x6#4 => .ok (.shr (fieldX w) (fieldY w))
  | 0x7#4 => .ok (.subn (fieldX w) (fieldY w))
  | 0xE#4 => .ok (.shl (fieldX w) (fieldY w))
  | _ => .error (.unmatched w)

/-- Family E: the low byte selects the operation (R44). -/
def decodeFamilyE (w : Word) : Except DecodeReject Instr :=
  match fieldNN w with
  | 0x9E#8 => .ok (.skp (fieldX w))
  | 0xA1#8 => .ok (.sknp (fieldX w))
  | _ => .error (.unmatched w)

/-- Family F: the low byte selects the operation (R44). -/
def decodeFamilyF (w : Word) : Except DecodeReject Instr :=
  match fieldNN w with
  | 0x07#8 => .ok (.ldVxDt (fieldX w))
  | 0x0A#8 => .ok (.ldVxK (fieldX w))
  | 0x15#8 => .ok (.ldDtVx (fieldX w))
  | 0x18#8 => .ok (.ldStVx (fieldX w))
  | 0x1E#8 => .ok (.addI (fieldX w))
  | 0x29#8 => .ok (.ldF (fieldX w))
  | 0x33#8 => .ok (.ldB (fieldX w))
  | 0x55#8 => .ok (.stRegs (fieldX w))
  | 0x65#8 => .ok (.ldRegs (fieldX w))
  | _ => .error (.unmatched w)

/-- `Decode(op)` of 30_encoding.md R44: the family nibble selects the family. The last arm is family F, the one value
of the nibble that the arms before it leave. In families 5 and 9 the low nibble is not examined (R45). -/
def decodeWord (w : Word) : Except DecodeReject Instr :=
  match fieldF w with
  | 0x0#4 => decodeFamily0 w
  | 0x1#4 => .ok (.jp (fieldNNN w))
  | 0x2#4 => .ok (.call (fieldNNN w))
  | 0x3#4 => .ok (.seImm (fieldX w) (fieldNN w))
  | 0x4#4 => .ok (.sneImm (fieldX w) (fieldNN w))
  | 0x5#4 => .ok (.seReg (fieldX w) (fieldY w))
  | 0x6#4 => .ok (.ldImm (fieldX w) (fieldNN w))
  | 0x7#4 => .ok (.addImm (fieldX w) (fieldNN w))
  | 0x8#4 => decodeFamily8 w
  | 0x9#4 => .ok (.sneReg (fieldX w) (fieldY w))
  | 0xA#4 => .ok (.ldI (fieldNNN w))
  | 0xB#4 => .ok (.jpV0 (fieldNNN w))
  | 0xC#4 => .ok (.rnd (fieldX w) (fieldNN w))
  | 0xD#4 => .ok (.drw (fieldX w) (fieldY w) (fieldN w).toNat)
  | 0xE#4 => decodeFamilyE w
  | _ => decodeFamilyF w

/-- Decoding from bytes as they lie in memory, lowest address first: the instruction and the bytes after it. Every
instruction is two bytes (R40). -/
def decode (bytes : List Byte) : Except DecodeReject (Instr × List Byte) :=
  match bytes with
  | hi :: lo :: rest =>
    match decodeWord (wordOfBytes hi lo) with
    | .ok i => .ok (i, rest)
    | .error e => .error e
  | _ => .error .tooShort

/-! ### Encoding -/

/-- A register number as the four bits of its field. -/
def regBits (r : Reg) : Nibble := BitVec.ofFin r

/-- Format `A`: family nibble and address (30_encoding.md R42). -/
def encodeA (f : Nibble) (nnn : Addr12) : Word := f ++ nnn

/-- Format `XI`: family nibble, `x`, immediate byte (R42). -/
def encodeXI (f : Nibble) (x : Reg) (nn : Byte) : Word := f ++ (regBits x ++ nn)

/-- Formats `XY` and `XYN`: family nibble, `x`, `y`, low nibble (R42). -/
def encodeXYN (f : Nibble) (x y : Reg) (n : Nibble) : Word := f ++ (regBits x ++ (regBits y ++ n))

/-- The word of an instruction, in its canonical form (R45: `n = 0` in families 5 and 9). An ill-formed `drw` is given
the low four bits of its row count. -/
def encode (i : Instr) : Word :=
  match i with
  | .cls => 0x00E0#16
  | .ret => 0x00EE#16
  | .jp nnn => encodeA 0x1#4 nnn
  | .call nnn => encodeA 0x2#4 nnn
  | .seImm x nn => encodeXI 0x3#4 x nn
  | .sneImm x nn => encodeXI 0x4#4 x nn
  | .seReg x y => encodeXYN 0x5#4 x y 0x0#4
  | .ldImm x nn => encodeXI 0x6#4 x nn
  | .addImm x nn => encodeXI 0x7#4 x nn
  | .ldReg x y => encodeXYN 0x8#4 x y 0x0#4
  | .or x y => encodeXYN 0x8#4 x y 0x1#4
  | .and x y => encodeXYN 0x8#4 x y 0x2#4
  | .xor x y => encodeXYN 0x8#4 x y 0x3#4
  | .addReg x y => encodeXYN 0x8#4 x y 0x4#4
  | .sub x y => encodeXYN 0x8#4 x y 0x5#4
  | .shr x y => encodeXYN 0x8#4 x y 0x6#4
  | .subn x y => encodeXYN 0x8#4 x y 0x7#4
  | .shl x y => encodeXYN 0x8#4 x y 0xE#4
  | .sneReg x y => encodeXYN 0x9#4 x y 0x0#4
  | .ldI nnn => encodeA 0xA#4 nnn
  | .jpV0 nnn => encodeA 0xB#4 nnn
  | .rnd x nn => encodeXI 0xC#4 x nn
  | .drw x y n => encodeXYN 0xD#4 x y (BitVec.ofNat 4 n)
  | .skp x => encodeXI 0xE#4 x 0x9E#8
  | .sknp x => encodeXI 0xE#4 x 0xA1#8
  | .ldVxDt x => encodeXI 0xF#4 x 0x07#8
  | .ldVxK x => encodeXI 0xF#4 x 0x0A#8
  | .ldDtVx x => encodeXI 0xF#4 x 0x15#8
  | .ldStVx x => encodeXI 0xF#4 x 0x18#8
  | .addI x => encodeXI 0xF#4 x 0x1E#8
  | .ldF x => encodeXI 0xF#4 x 0x29#8
  | .ldB x => encodeXI 0xF#4 x 0x33#8
  | .stRegs x => encodeXI 0xF#4 x 0x55#8
  | .ldRegs x => encodeXI 0xF#4 x 0x65#8

/-- The bytes of a word in memory, lowest address first (20_memory.md R25). -/
def wordBytes (w : Word) : List Byte := [highByte w, lowByte w]

/-- The instruction whose bits are `w`, numbered as spec/opcode_table.json numbers them: the low `nbits` bits of `w`
are one 16-bit word, laid out big-endian and given to `decode`. -/
def decodeTableWord (nbits w : Nat) : Option Instr :=
  match decode (wordBytes (BitVec.ofNat 16 (w % 2 ^ nbits))) with
  | .ok (i, _) => some i
  | .error _ => none

/-! ### The opcode table -/

/-- One row of the table of 30_encoding.md section 4: a word `w` is the instruction when `w & mask = pattern`. -/
structure OpcodeRow where
  mnemonic : String
  pattern : Word
  mask : Word
deriving DecidableEq, Repr

/-- Families 0 to 7 of the table. -/
def opcodeRowsLow : List OpcodeRow :=
  [⟨"CLS", 0x00E0, 0xFFFF⟩, ⟨"RET", 0x00EE, 0xFFFF⟩, ⟨"JP", 0x1000, 0xF000⟩, ⟨"CALL", 0x2000, 0xF000⟩,
   ⟨"SE_IMM", 0x3000, 0xF000⟩, ⟨"SNE_IMM", 0x4000, 0xF000⟩, ⟨"SE_REG", 0x5000, 0xF000⟩,
   ⟨"LD_IMM", 0x6000, 0xF000⟩, ⟨"ADD_IMM", 0x7000, 0xF000⟩]

/-- Family 8 of the table. -/
def opcodeRows8 : List OpcodeRow :=
  [⟨"LD_REG", 0x8000, 0xF00F⟩, ⟨"OR", 0x8001, 0xF00F⟩, ⟨"AND", 0x8002, 0xF00F⟩, ⟨"XOR", 0x8003, 0xF00F⟩,
   ⟨"ADD_REG", 0x8004, 0xF00F⟩, ⟨"SUB", 0x8005, 0xF00F⟩, ⟨"SHR", 0x8006, 0xF00F⟩, ⟨"SUBN", 0x8007, 0xF00F⟩,
   ⟨"SHL", 0x800E, 0xF00F⟩]

/-- Families 9 to D of the table. -/
def opcodeRowsHigh : List OpcodeRow :=
  [⟨"SNE_REG", 0x9000, 0xF000⟩, ⟨"LD_I", 0xA000, 0xF000⟩, ⟨"JP_V0", 0xB000, 0xF000⟩, ⟨"RND", 0xC000, 0xF000⟩,
   ⟨"DRW", 0xD000, 0xF000⟩]

/-- Families E and F of the table. -/
def opcodeRowsEF : List OpcodeRow :=
  [⟨"SKP", 0xE09E, 0xF0FF⟩, ⟨"SKNP", 0xE0A1, 0xF0FF⟩, ⟨"LD_VX_DT", 0xF007, 0xF0FF⟩, ⟨"LD_VX_K", 0xF00A, 0xF0FF⟩,
   ⟨"LD_DT_VX", 0xF015, 0xF0FF⟩, ⟨"LD_ST_VX", 0xF018, 0xF0FF⟩, ⟨"ADD_I", 0xF01E, 0xF0FF⟩,
   ⟨"LD_F", 0xF029, 0xF0FF⟩, ⟨"LD_B", 0xF033, 0xF0FF⟩, ⟨"ST_REGS", 0xF055, 0xF0FF⟩, ⟨"LD_REGS", 0xF065, 0xF0FF⟩]

/-- The 34 rows of spec/opcode_table.json, in its order. -/
def opcodeTable : List OpcodeRow := opcodeRowsLow ++ (opcodeRows8 ++ (opcodeRowsHigh ++ opcodeRowsEF))

/-- Does a word match a row? -/
def OpcodeRow.covers (r : OpcodeRow) (w : Word) : Bool := w &&& r.mask = r.pattern

/-- The mnemonic of spec/opcode_table.json that a constructor stands for. -/
def Instr.mnemonic (i : Instr) : String :=
  match i with
  | .cls => "CLS"
  | .ret => "RET"
  | .jp _ => "JP"
  | .call _ => "CALL"
  | .seImm _ _ => "SE_IMM"
  | .sneImm _ _ => "SNE_IMM"
  | .seReg _ _ => "SE_REG"
  | .ldImm _ _ => "LD_IMM"
  | .addImm _ _ => "ADD_IMM"
  | .ldReg _ _ => "LD_REG"
  | .or _ _ => "OR"
  | .and _ _ => "AND"
  | .xor _ _ => "XOR"
  | .addReg _ _ => "ADD_REG"
  | .sub _ _ => "SUB"
  | .shr _ _ => "SHR"
  | .subn _ _ => "SUBN"
  | .shl _ _ => "SHL"
  | .sneReg _ _ => "SNE_REG"
  | .ldI _ => "LD_I"
  | .jpV0 _ => "JP_V0"
  | .rnd _ _ => "RND"
  | .drw _ _ _ => "DRW"
  | .skp _ => "SKP"
  | .sknp _ => "SKNP"
  | .ldVxDt _ => "LD_VX_DT"
  | .ldVxK _ => "LD_VX_K"
  | .ldDtVx _ => "LD_DT_VX"
  | .ldStVx _ => "LD_ST_VX"
  | .addI _ => "ADD_I"
  | .ldF _ => "LD_F"
  | .ldB _ => "LD_B"
  | .stRegs _ => "ST_REGS"
  | .ldRegs _ => "LD_REGS"

end Sys2Proof
end

