-- ==== Sys2Proof/Config.lean ====
section
/-! DEFINITION. What this hardware fixes (00_scope.md R6) and the one free value of the model: the random byte.
The parameters of R6 that choose a behaviour (the polarity of `VF` after a subtraction, the shifted register, and so
on) are written into the definitions they govern, which cite them; NOTES.md lists which definition each one governs. -/

namespace Sys2Proof

/-- `MEM_SIZE`: 4096 bytes, addresses `0x000..0xFFF` (00_scope.md R6, 10_state.md R15). -/
abbrev Config.memSize : Nat := 4096

/-- `ROM_BASE`: where the host loads a program, and the reset value of `pc` (00_scope.md R6, 10_state.md R9). -/
abbrev Config.romBase : Nat := 0x200

/-- `ROM_MAX`: the longest program the host may load, `4096 - 0x200` (00_scope.md R6, 70_reset_and_hazards.md R106). -/
abbrev Config.romMax : Nat := 3584

/-- `STACK_DEPTH`: usable stack entries, 1 to 15 (00_scope.md R6, 10_state.md R12). -/
abbrev Config.stackDepth : Nat := 15

/-- The byte that the `k`-th execution of `Cxnn` finds on the input `rnd_in`. 41_alu.md R70: "a model treats `r` as a
free draw: any value `0..255`, independently at every execution, under no law". It has no body, so no proof can rest
on a value of it. FREE VALUE, log entry 1. -/
opaque Config.rndByte : Nat → Byte

end Sys2Proof
end

