-- ==== Sys2Proof/Machine/State.lean ====
section
/-! DEFINITION. The state of the block (10_state.md R7 to R24, 60_exceptions.md R88), its reset value
(70_reset_and_hazards.md R104), and the reasons for which a step of the model can stop. -/

namespace Sys2Proof.Machine

/-- The contents of `mem`: the bytes that differ from their reset value, addresses rising. `Memory.wf` is the form,
`Memory.read` the contents of every address. -/
abbrev Memory := List Host.Cell

/-- The framebuffer: 64 columns by 32 rows of one-bit cells (43_display.md R77). Row `py` of the vector is screen row
`py`, and its bit `px` is column `px`; 10_state.md R21's cell `px + py*64` is `Framebuffer.cell`. DESIGN CHOICE (the
representation only), log entry 7. -/
abbrev Framebuffer := Vector (BitVec 64) 32

/-- The five faults of 60_exceptions.md R88, in the order of their codes. -/
inductive FaultCode where
  /-- Code 1, raised by the fetch of any step (R89). -/
  | pcOutOfRange
  /-- Code 2, raised by `Dxyn`, `Fx33`, `Fx55`, `Fx65` (R90). -/
  | memOutOfRange
  /-- Code 3, raised by `2nnn` (R91). -/
  | stackOverflow
  /-- Code 4, raised by `00EE` (R92). -/
  | stackUnderflow
  /-- Code 5, raised by `Ex9E`, `ExA1` (R93). -/
  | keyIndexOutOfRange
deriving DecidableEq, Repr

/-- What the fault latch holds when it is set: "a pair `(code, info)`" (60_exceptions.md R88). The spec gives `info` no
width: it is held as the number it is. DESIGN CHOICE, log entry 11. -/
structure FaultRecord where
  code : FaultCode
  info : Nat
deriving DecidableEq, Repr

/-- Where the model itself stops. A fault of 60_exceptions.md R88 is none of these: it is a next state with the latch
set (`raise`), log entry 2. -/
inductive Fault where
  /-- Raised by RET (`00EE`) and CALL (`2nnn`) in a state whose `sp` is none of its legal values `0..15` (10_state.md
  R12), for which the spec gives no effect. Safe: no run from reset reaches such a state. Log entry 3. -/
  | spNotLegal
deriving DecidableEq, Repr

/-- What the model gives no meaning to. -/
inductive Refusal where
  /-- Raised by an arm of `exec` for an instruction that has no meaning yet. Safe. No arm does. -/
  | notModelled (mnemonic : String)
  /-- Raised by loading a program longer than `Config.romMax` bytes: the load port is defined only up to that length
  (93_implementation_defined.md U23, 70_reset_and_hazards.md R106). No instruction raises it. Safe. Log entry 9. -/
  | romTooLarge (length : Nat)
  /-- Raised by a schedule that uses the load port after the first step since `reset`: the port is defined only before
  it (93_implementation_defined.md U23, 70_reset_and_hazards.md R106). No instruction raises it. Safe. Log entry 9. -/
  | loadAfterFirstStep
deriving DecidableEq, Repr

/-- Everything the block holds (10_state.md R7 to R22, 60_exceptions.md R88), and the model's own counter `draws`. -/
structure State where
  /-- The general registers `V0..VF` (10_state.md R7); `V[15]` is also the flag `VF` (R8). -/
  v : Vector Byte 16
  /-- The index register `I` (R11). -/
  i : Word
  /-- The program counter (R9, R10). -/
  pc : Word
  /-- The stack pointer: the number of return addresses on the stack; legal values `0..15` (R12). -/
  sp : Byte
  /-- The return stack; entry 0 is never used (R13). -/
  stack : Vector Word 16
  /-- `DT`, the delay timer (R14). -/
  dt : Byte
  /-- `ST`, the sound timer (R14). -/
  st : Byte
  /-- `mem` (R15). -/
  mem : Memory
  /-- The key latches; `true` is held (R20). -/
  key : Vector Bool 16
  /-- The framebuffer (R21). -/
  fb : Framebuffer
  /-- `draw_req`, the result of the last step (R22). -/
  drawReq : Bool
  /-- The fault latch (60_exceptions.md R88). -/
  fault : Option FaultRecord
  /-- The model's own: how many bytes have been drawn from `rnd_in`. It only chooses which value of the free
  `Config.rndByte` the next `Cxnn` gets; nothing else reads it. Log entry 1. -/
  draws : Nat
deriving DecidableEq, Repr

/-- The outcome of a step or an event. -/
abbrev Result := Host.Outcome State Fault Refusal

/-- The machine right after reset (70_reset_and_hazards.md R104). `pc`, `sp`, `fb` and the font table are the source's;
the other zeros are the spec's own decision D3 (log entry 5). Memory lists nothing: every byte has its reset value.
`draws` is the model's own (DESIGN CHOICE 0, log entry 1). -/
def State.reset : State where
  v := Vector.replicate 16 0x00
  i := 0x0000
  pc := 0x0200
  sp := 0
  stack := Vector.replicate 16 0x0000
  dt := 0x00
  st := 0x00
  mem := []
  key := Vector.replicate 16 false
  fb := Vector.replicate 32 0
  drawReq := false
  fault := none
  draws := 0

end Sys2Proof.Machine
end

