-- ==== Sys2Proof/Machine/Ops.lean ====
section
/-! DEFINITION. The operations every meaning is built from: memory, registers, the program counter, the stack, the
framebuffer, and raising a fault. -/

namespace Sys2Proof.Machine

/-! ### Memory (20_memory.md) -/

/-- The 16 glyphs of the font sprite table, five rows each (10_state.md R18). PRESUMED by the spec ("from general
knowledge, not in source", D4), log entry 6. -/
def glyphs : List (List Byte) :=
  [[0xF0, 0x90, 0x90, 0x90, 0xF0], [0x20, 0x60, 0x20, 0x20, 0x70], [0xF0, 0x10, 0xF0, 0x80, 0xF0],
   [0xF0, 0x10, 0xF0, 0x10, 0xF0], [0x90, 0x90, 0xF0, 0x10, 0x10], [0xF0, 0x80, 0xF0, 0x10, 0xF0],
   [0xF0, 0x80, 0xF0, 0x90, 0xF0], [0xF0, 0x10, 0x20, 0x40, 0x40], [0xF0, 0x90, 0xF0, 0x90, 0xF0],
   [0xF0, 0x90, 0xF0, 0x10, 0xF0], [0xF0, 0x90, 0xF0, 0x90, 0x90], [0xE0, 0x90, 0xE0, 0x90, 0xE0],
   [0xF0, 0x80, 0x80, 0x80, 0xF0], [0xE0, 0x90, 0x90, 0x90, 0xE0], [0xF0, 0x80, 0xF0, 0x80, 0xF0],
   [0xF0, 0x80, 0xF0, 0x80, 0x80]]

/-- `FONT`: the 80 bytes that `reset` writes to `0x000..0x04F`, glyph 0 first (10_state.md R17, R18). -/
def font : List Byte := glyphs.flatten

/-- What an address reads as while nothing has been written there: the font table in `0x000..0x04F`, `0x00` elsewhere
(10_state.md R15, 20_memory.md R33). The zeros are the spec's own decision D3, log entry 5. -/
def Memory.unlisted (a : Nat) : Byte := (font[a]?).getD 0x00

/-- The byte listed for an address. -/
def Memory.listed (m : Memory) (a : Nat) : Option Byte :=
  match m with
  | [] => none
  | c :: rest => if c.1 = a then some c.2 else Memory.listed rest a

/-- `mem[a]`. -/
def Memory.read (m : Memory) (a : Nat) : Byte := (m.listed a).getD (Memory.unlisted a)

/-- The list without an entry for `a`. -/
def Memory.erase (m : Memory) (a : Nat) : Memory := m.filter fun c => c.1 ≠ a

/-- The list with the entry `(a, b)` in its place. -/
def Memory.insert (m : Memory) (a : Nat) (b : Byte) : Memory :=
  match m with
  | [] => [(a, b)]
  | c :: rest =>
    if a < c.1 then (a, b) :: c :: rest
    else if c.1 = a then (a, b) :: rest
    else c :: Memory.insert rest a b

/-- `mem[a] <- b`. Writing what an unlisted address reads as removes the entry. -/
def Memory.write (m : Memory) (a : Nat) (b : Byte) : Memory :=
  if b = Memory.unlisted a then m.erase a else m.insert a b

/-- The canonical form: addresses strictly rising and below 4096, and no entry equal to what its address reads as
unlisted. -/
abbrev Memory.wf (m : Memory) : Prop :=
  m.Pairwise (fun c d => c.1 < d.1) ∧ ∀ c ∈ m, c.1 < Config.memSize ∧ c.2 ≠ Memory.unlisted c.1

/-- The `n` bytes from address `a` upward, lowest address first. -/
def Memory.readBytes (m : Memory) (a n : Nat) : List Byte := (List.range n).map fun k => m.read (a + k)

/-- Write bytes from address `a` upward, in ascending order (20_memory.md R26). -/
def Memory.writeBytes (m : Memory) (a : Nat) (bytes : List Byte) : Memory :=
  match bytes with
  | [] => m
  | b :: rest => Memory.writeBytes (m.write a b) (a + 1) rest

/-- The lowest of the `n` addresses from `a` upward that exceeds `0xFFF`, if one does (20_memory.md R28, R29; the
`info` of `MemOutOfRange`, 60_exceptions.md R90). Addresses are natural numbers: nothing wraps (20_memory.md R35). -/
def firstOutOfRange (a n : Nat) : Option Nat := ((List.range n).map (a + ·)).find? (· > 0xFFF)

/-! ### Registers (10_state.md R7, R8) -/

/-- `VF`, the general register that is also the flag (10_state.md R8). -/
abbrev vf : Reg := 15

/-- `V[r]`. -/
def State.reg (s : State) (r : Reg) : Byte := s.v[r]

/-- `V[r] <- b`. -/
def State.setReg (s : State) (r : Reg) (b : Byte) : State := { s with v := s.v.set r b }

/-- Registers `V[k]`, `V[k+1]`, ... receive the bytes of a list in order (42_index_memory.md R76). -/
def fillRegs (v : Vector Byte 16) (k : Nat) (bytes : List Byte) : Vector Byte 16 :=
  match bytes with
  | [] => v
  | b :: rest => fillRegs (v.setIfInBounds k b) (k + 1) rest

/-- `V0..` receive the bytes of a list in ascending order. -/
def State.loadRegs (s : State) (bytes : List Byte) : State := { s with v := fillRegs s.v 0 bytes }

/-- The contents of `V0..Vx`, in ascending order (R75). -/
def State.regsUpTo (s : State) (x : Reg) : List Byte := s.v.toList.take (x.val + 1)

/-- `I <- w`. -/
def State.setI (s : State) (w : Word) : State := { s with i := w }

/-- `DT <- b`. -/
def State.setDT (s : State) (b : Byte) : State := { s with dt := b }

/-- `ST <- b`. -/
def State.setST (s : State) (b : Byte) : State := { s with st := b }

/-- The memory of the state becomes `m`. -/
def State.setMem (s : State) (m : Memory) : State := { s with mem := m }

/-- The key latches become `k`. -/
def State.setKeys (s : State) (k : Vector Bool 16) : State := { s with key := k }

/-- The framebuffer becomes `fb`. -/
def State.setFb (s : State) (fb : Framebuffer) : State := { s with fb := fb }

/-- `draw_req <- b` (10_state.md R22). -/
def State.setDrawReq (s : State) (b : Bool) : State := { s with drawReq := b }

/-- One more byte has been drawn from `rnd_in` (the model's own counter, log entry 1). -/
def State.countDraw (s : State) : State := { s with draws := s.draws + 1 }

/-! ### The program counter (10_state.md R10) -/

/-- `pc <- w`. -/
def State.setPc (s : State) (w : Word) : State := { s with pc := w }

/-- The ordinary advance: `pc <- pc0 + 2`. -/
def State.advance (s : State) : State := s.setPc (s.pc + 2)

/-- The advance of a skip instruction: `pc0 + 4` when its condition holds, `pc0 + 2` otherwise. -/
def State.skipIf (s : State) (condition : Bool) : State := s.setPc (if condition then s.pc + 4 else s.pc + 2)

/-! ### Faults (60_exceptions.md R88) -/

/-- `raise F(info)`: the step is abandoned, no architectural state changes, `draw_req` is 0, and the latch records the
fault; the state is halted (`step`). The one operation for all five faults. There is no return from a fault but `reset`
(R96). DEDUCED that this is a next state of the model, log entry 2. -/
def raise (code : FaultCode) (info : Nat) (s : State) : Result :=
  .next { s with fault := some ⟨code, info⟩, drawReq := false }

/-- Code numbers of the fault latch (R88). -/
def FaultCode.number (c : FaultCode) : Nat :=
  match c with
  | .pcOutOfRange => 1
  | .memOutOfRange => 2
  | .stackOverflow => 3
  | .stackUnderflow => 4
  | .keyIndexOutOfRange => 5

/-- Read the `n` bytes from address `a` upward and go on with them, or raise `MemOutOfRange` before anything is done
if one of the addresses does not exist (20_memory.md R28; the range checks of 42_index_memory.md R76 and
43_display.md R79). -/
def withBytes (a n : Nat) (s : State) (go : List Byte → Result) : Result :=
  match firstOutOfRange a n with
  | some bad => raise .memOutOfRange bad s
  | none => go (s.mem.readBytes a n)

/-- Write bytes from address `a` upward and go on, or raise `MemOutOfRange` before anything is written if one of the
addresses does not exist (20_memory.md R29; the range checks of 42_index_memory.md R74 and R75). -/
def storeBytes (a : Nat) (bytes : List Byte) (s : State) (go : State → Result) : Result :=
  match firstOutOfRange a bytes.length with
  | some bad => raise .memOutOfRange bad s
  | none => go (s.setMem (s.mem.writeBytes a bytes))

/-! ### Fetch (20_memory.md R25, R27) -/

/-- The instruction word at an address that lies in memory: two bytes, big-endian (R25). -/
def State.wordAt (s : State) (a : Nat) : Word := wordOfBytes (s.mem.read a) (s.mem.read (a + 1))

/-- `Fetch(pc0)`: raise `PcOutOfRange(pc0)` if `pc0 > 0xFFE`, else go on with the word (R27). -/
def withFetched (s : State) (go : Word → Result) : Result :=
  if s.pc.toNat > 0xFFE then raise .pcOutOfRange s.pc.toNat s else go (s.wordAt s.pc.toNat)

/-! ### The return stack (10_state.md R12, R13) -/

/-- Push: `sp <- sp + 1`, `stack[sp] <- w`, for the new value of `sp` (40_control_flow.md R51). -/
def State.push (s : State) (w : Word) : State :=
  { s with sp := s.sp + 1, stack := s.stack.setIfInBounds (s.sp.toNat + 1) w }

/-- `stack[sp]`, the entry on top. -/
def State.top (s : State) : Word := (s.stack[s.sp.toNat]?).getD 0

/-- Pop: `sp <- sp - 1`; the entry keeps its contents (R49). -/
def State.pop (s : State) : State := { s with sp := s.sp - 1 }

/-! ### The framebuffer (43_display.md R77) -/

/-- Is the pixel in column `px` of row `py` on? Cell `px + py*64` of 10_state.md R21. -/
def Framebuffer.pixel (fb : Framebuffer) (px py : Nat) : Bool := ((fb[py]?).getD 0).getLsbD px

/-- `fb[j]`, the cell of number `j` (10_state.md R21: cells are "indexed `x + y*64`"). -/
def Framebuffer.cell (fb : Framebuffer) (j : Nat) : Bool := fb.pixel (j % 64) (j / 64)

/-- Toggle one pixel: `fb[j] <- fb[j] ^ 1`. -/
def Framebuffer.toggle (fb : Framebuffer) (px py : Nat) : Framebuffer :=
  fb.setIfInBounds py (((fb[py]?).getD 0) ^^^ BitVec.twoPow 64 px)

/-- All pixels off. -/
def Framebuffer.blank : Framebuffer := Vector.replicate 32 0

/-! ### The key latches (10_state.md R20) -/

/-- Is key `k` held? -/
def State.held (s : State) (k : Fin 16) : Bool := s.key[k]

/-- The least key that is held, if one is (44_keypad_timers.md R84). -/
def State.leastHeld (s : State) : Option (Fin 16) := (List.finRange 16).find? fun k => s.held k

end Sys2Proof.Machine
end

