-- ==== Sys2Proof/Machine/Flags.lean ====
section
/-! DEFINITION. The flag computations (10_state.md R8: carry, not-borrow, bit shifted out, collision), each from the
operands as they were before the operation, and the order of the two writes (41_alu.md R69). -/

namespace Sys2Proof.Machine

/-- A flag as the byte that `VF` receives: "As a flag it only ever receives the values 0 and 1" (10_state.md R8). -/
def flagByte (b : Bool) : Byte := if b then 0x01 else 0x00

/-- `trunc8(n)`, `n mod 256` (00_scope.md section 8.1). -/
def trunc8 (n : Nat) : Byte := BitVec.ofNat 8 n

/-- The carry out of bit 7 of `a + b` (41_alu.md R64). -/
def carryOut (a b : Byte) : Bool := a.toNat + b.toNat > 255

/-- `a - b` does not borrow: 1 exactly when `a >= b` (R65, R67). The polarity is the spec's own decision D10
(parameter `SUB_VF_NO_BORROW = 1`). UNVERIFIED, log entry 14. -/
def notBorrow (a b : Byte) : Bool := a.toNat ≥ b.toNat

/-- The bit that a shift right by one shifts out (R66). -/
def bitOutRight (a : Byte) : Bool := a.getLsbD 0

/-- The bit that a shift left by one shifts out (R68). -/
def bitOutLeft (a : Byte) : Bool := a.getLsbD 7

/-- Phases 2 and 3 of R69: "write the 8-bit result to `V[x]`", then "write the flag, 0 or 1, to `V[15]`"; with `x = F`
the flag wins. The order is the spec's own decision D9 (parameter `ALU_FLAG_LAST`). UNVERIFIED, log entry 13. -/
def State.writeResultThenFlag (s : State) (x : Reg) (result : Byte) (flag : Bool) : State :=
  (s.setReg x result).setReg vf (flagByte flag)

end Sys2Proof.Machine
end

