-- ==== Sys2Proof/Machine/Operands.lean ====
section
/-! DEFINITION. The operand forms: what each field of an instruction stands for (30_encoding.md R43, 42_index_memory.md
section 1, 43_display.md R79, 44_keypad_timers.md R81). -/

namespace Sys2Proof.Machine

/-- `nnn` as a value of `pc` or `I`: zero-extended to 16 bits (30_encoding.md R43). -/
def addressOf (nnn : Addr12) : Word := nnn.setWidth 16

/-- The target of `Bnnn`: `zext_16(nnn) + zext_16(V[0])`, not masked to 12 bits (40_control_flow.md R56). -/
def offsetTarget (nnn : Addr12) (s : State) : Word := nnn.setWidth 16 + (s.reg 0).setWidth 16

/-- The base of every data access, `I` as a natural number (20_memory.md R35). -/
def baseAddress (s : State) : Nat := s.i.toNat

/-- How many registers `V0..Vx` are: `x` names a count (42_index_memory.md R75). -/
def regCount (x : Reg) : Nat := x.val + 1

/-- The key a register names, if its value is a key number (44_keypad_timers.md R81). -/
def keyNumber (b : Byte) : Option (Fin 16) := if h : b.toNat < 16 then some ⟨b.toNat, h⟩ else none

/-- The address of the font glyph a register names: `Vx * 5`, the whole 8-bit value (42_index_memory.md R73). -/
def glyphAddress (b : Byte) : Word := b.setWidth 16 * 5

/-- `I + Vx`, truncated to 16 bits (R72). -/
def indexPlus (i : Word) (b : Byte) : Word := i + b.setWidth 16

/-- The three decimal digits of a byte, hundreds first (R74). -/
def decimalDigits (b : Byte) : List Byte :=
  [trunc8 (b.toNat / 100), trunc8 (b.toNat / 10 % 10), trunc8 (b.toNat % 10)]

/-- The column of a sprite's origin: `V[x] & 63` (43_display.md R79). -/
def originColumn (b : Byte) : Nat := (b &&& 63).toNat

/-- The row of a sprite's origin: `V[y] & 31` (R79). -/
def originRow (b : Byte) : Nat := (b &&& 31).toNat

/-- The sprite rows that are drawn, `min(n, 32 - y_pos)`: the others are skipped entirely (R79). -/
def visibleRows (n yPos : Nat) : Nat := min n (32 - yPos)

/-- The register a shift reads: `Vx`; the field `y` is ignored. The spec's own decision D11 (parameter `SHIFT_SRC = X`).
UNVERIFIED, log entry 15. -/
def shiftOperand (x _y : Reg) (s : State) : Byte := s.reg x

end Sys2Proof.Machine
end

