-- ==== Sys2Proof/Machine/Alu.lean ====
section
/-! DEFINITION. Register load, arithmetic, logic, shift and random (41_alu.md R58 to R70). Every meaning here ends with
`pc <- pc0 + 2` and raises no fault. The numbering of the nine operations of family 8 is the spec's own decision D13,
log entry 17. -/

namespace Sys2Proof.Machine

/-- `6xnn` (R58). -/
def execLdImm (x : Reg) (nn : Byte) (s : State) : Result := .next (s.setReg x nn).advance

/-- `7xnn` (R59): `VF` is not touched, also when the addition wraps. -/
def execAddImm (x : Reg) (nn : Byte) (s : State) : Result :=
  .next (s.setReg x (trunc8 ((s.reg x).toNat + nn.toNat))).advance

/-- `8xy0` (R60). -/
def execLdReg (x y : Reg) (s : State) : Result := .next (s.setReg x (s.reg y)).advance

/-- `8xy1` (R61). `VF` is left alone: the spec's own decision D12, log entry 16. -/
def execOr (x y : Reg) (s : State) : Result := .next (s.setReg x (s.reg x ||| s.reg y)).advance

/-- `8xy2` (R62). `VF` is left alone: D12, log entry 16. -/
def execAnd (x y : Reg) (s : State) : Result := .next (s.setReg x (s.reg x &&& s.reg y)).advance

/-- `8xy3` (R63). `VF` is left alone: D12, log entry 16. -/
def execXor (x y : Reg) (s : State) : Result := .next (s.setReg x (s.reg x ^^^ s.reg y)).advance

/-- `8xy4` (R64). -/
def execAddReg (x y : Reg) (s : State) : Result :=
  let a := s.reg x
  let b := s.reg y
  .next (s.writeResultThenFlag x (trunc8 (a.toNat + b.toNat)) (carryOut a b)).advance

/-- `8xy5` (R65). -/
def execSub (x y : Reg) (s : State) : Result :=
  let a := s.reg x
  let b := s.reg y
  .next (s.writeResultThenFlag x (trunc8 (a.toNat + 256 - b.toNat)) (notBorrow a b)).advance

/-- `8xy6` (R66). -/
def execShr (x y : Reg) (s : State) : Result :=
  let a := shiftOperand x y s
  .next (s.writeResultThenFlag x (a >>> 1) (bitOutRight a)).advance

/-- `8xy7` (R67). -/
def execSubn (x y : Reg) (s : State) : Result :=
  let a := s.reg x
  let b := s.reg y
  .next (s.writeResultThenFlag x (trunc8 (b.toNat + 256 - a.toNat)) (notBorrow b a)).advance

/-- `8xyE` (R68). -/
def execShl (x y : Reg) (s : State) : Result :=
  let a := shiftOperand x y s
  .next (s.writeResultThenFlag x (a <<< 1) (bitOutLeft a)).advance

/-- `Cxnn` when the byte on `rnd_in` is `r` (R70). -/
def rndWith (r : Byte) (x : Reg) (nn : Byte) (s : State) : Result :=
  .next ((s.setReg x (r &&& nn)).countDraw).advance

/-- `Cxnn` (R70): the byte on `rnd_in` is a FREE VALUE, log entry 1. -/
def execRnd (x : Reg) (nn : Byte) (s : State) : Result := rndWith (Config.rndByte s.draws) x nn s

end Sys2Proof.Machine
end

