-- ==== Sys2Proof/Machine/ControlFlow.lean ====
section
/-! DEFINITION. Control transfer (40_control_flow.md R49 to R57). Every meaning runs inside the frame of `step`
(30_encoding.md R39): `s.pc` is `pc0`, and `draw_req` is already 0. -/

namespace Sys2Proof.Machine

/-- `00EE` (R49). A state whose `sp` is above 15 is none of the spec's (10_state.md R12): `Fault.spNotLegal`. -/
def execRet (s : State) : Result :=
  if s.sp = 0 then raise .stackUnderflow s.pc.toNat s
  else if s.sp.toNat > Config.stackDepth then .fault .spNotLegal
  else .next (s.pop.setPc (s.top + 2))

/-- `1nnn` (R50). -/
def execJp (nnn : Addr12) (s : State) : Result := .next (s.setPc (addressOf nnn))

/-- `2nnn` (R51): the pushed value is `pc0`, the address of the call itself. -/
def execCall (nnn : Addr12) (s : State) : Result :=
  if s.sp.toNat = Config.stackDepth then raise .stackOverflow s.pc.toNat s
  else if s.sp.toNat > Config.stackDepth then .fault .spNotLegal
  else .next ((s.push s.pc).setPc (addressOf nnn))

/-- `Bnnn` (R56). -/
def execJpV0 (nnn : Addr12) (s : State) : Result := .next (s.setPc (offsetTarget nnn s))

/-- `3xnn` (R52). -/
def execSeImm (x : Reg) (nn : Byte) (s : State) : Result := .next (s.skipIf (s.reg x = nn))

/-- `4xnn` (R53). -/
def execSneImm (x : Reg) (nn : Byte) (s : State) : Result := .next (s.skipIf (s.reg x ≠ nn))

/-- `5xy0` (R54). -/
def execSeReg (x y : Reg) (s : State) : Result := .next (s.skipIf (s.reg x = s.reg y))

/-- `9xy0` (R55). -/
def execSneReg (x y : Reg) (s : State) : Result := .next (s.skipIf (s.reg x ≠ s.reg y))

end Sys2Proof.Machine
end

