-- ==== Sys2Proof/Machine/Display.lean ====
section
/-! DEFINITION. The display controller (43_display.md R77 to R80): clear, and XOR sprite drawing with collision
detection. -/

namespace Sys2Proof.Machine

/-- What the inner loops of R79 carry: the framebuffer and the collision flag. -/
abbrev Canvas := Framebuffer × Bool

/-- One sprite bit at column `px` of row `py`: nothing if the bit is 0 or the column is clipped (`px > 63`), else
toggle the pixel and record a collision if it was on (R79). -/
def drawBit (px py : Nat) (bit : Bool) (c : Canvas) : Canvas :=
  if px ≤ 63 ∧ bit = true then (c.1.toggle px py, c.2 || c.1.pixel px py) else c

/-- One sprite row: columns 0 to 7 in ascending order, sprite column `k` is bit `7 - k` of the byte (R77). That order of
the bits is the spec's own decision D17, log entry 19. -/
def drawRow (xPos py : Nat) (byte : Byte) (c : Canvas) : Canvas :=
  (List.range 8).foldl (fun c k => drawBit (xPos + k) py (byte.getLsbD (7 - k)) c) c

/-- The sprite rows in ascending order, the first on screen row `py` (R79). -/
def drawRows (xPos py : Nat) (bytes : List Byte) (c : Canvas) : Canvas :=
  match bytes with
  | [] => c
  | b :: rest => drawRows xPos (py + 1) rest (drawRow xPos py b c)

/-- `00E0` (R78). -/
def execCls (s : State) : Result := .next ((s.setFb Framebuffer.blank).setDrawReq true).advance

/-- `Dxyn` (R79): the origin is latched from `Vx` and `Vy`, only the rows that are drawn are read, and the range check
stands before the first write. -/
def execDrw (x y : Reg) (n : Nat) (s : State) : Result :=
  let xPos := originColumn (s.reg x)
  let yPos := originRow (s.reg y)
  withBytes (baseAddress s) (visibleRows n yPos) s fun bytes =>
    let drawn := drawRows xPos yPos bytes (s.fb, false)
    .next (((s.setFb drawn.1).setReg vf (flagByte drawn.2)).setDrawReq true).advance

end Sys2Proof.Machine
end

