-- ==== Sys2Proof/Machine/IndexMemory.lean ====
section
/-! DEFINITION. Index register and memory transfer (42_index_memory.md R71 to R76). `I` is unchanged by the transfers:
the spec's own decision D19 (parameter `MEM_MOVES_I = false`), log entry 21. -/

namespace Sys2Proof.Machine

/-- `Annn` (R71). -/
def execLdI (nnn : Addr12) (s : State) : Result := .next (s.setI (addressOf nnn)).advance

/-- `Fx1E` (R72): no flag, not masked to 12 bits. -/
def execAddI (x : Reg) (s : State) : Result := .next (s.setI (indexPlus s.i (s.reg x))).advance

/-- `Fx29` (R73). -/
def execLdF (x : Reg) (s : State) : Result := .next (s.setI (glyphAddress (s.reg x))).advance

/-- `Fx33` (R74). -/
def execLdB (x : Reg) (s : State) : Result :=
  storeBytes (baseAddress s) (decimalDigits (s.reg x)) s fun t => .next t.advance

/-- `Fx55` (R75). -/
def execStRegs (x : Reg) (s : State) : Result :=
  storeBytes (baseAddress s) (s.regsUpTo x) s fun t => .next t.advance

/-- `Fx65` (R76). -/
def execLdRegs (x : Reg) (s : State) : Result :=
  withBytes (baseAddress s) (regCount x) s fun bytes => .next (s.loadRegs bytes).advance

end Sys2Proof.Machine
end

