-- ==== Sys2Proof/Machine/KeypadTimers.lean ====
section
/-! DEFINITION. Keypad and timer instructions (44_keypad_timers.md R81 to R86). The roles of `Fx07`, `Fx15` and `Fx18`
are the spec's own decision D14, log entry 18. -/

namespace Sys2Proof.Machine

/-- Go on with the key that a register's value names, or raise `KeyIndexOutOfRange` (R81; the spec's own decision D21,
log entry 22). -/
def withKey (b : Byte) (s : State) (go : Fin 16 → Result) : Result :=
  match keyNumber b with
  | some k => go k
  | none => raise .keyIndexOutOfRange b.toNat s

/-- `Ex9E` (R81). -/
def execSkp (x : Reg) (s : State) : Result := withKey (s.reg x) s fun k => .next (s.skipIf (s.held k))

/-- `ExA1` (R82). -/
def execSknp (x : Reg) (s : State) : Result := withKey (s.reg x) s fun k => .next (s.skipIf (!s.held k))

/-- `Fx07` (R83). -/
def execLdVxDt (x : Reg) (s : State) : Result := .next (s.setReg x s.dt).advance

/-- `Fx0A` (R84): with no key held nothing changes and the next step executes it again. -/
def execLdVxK (x : Reg) (s : State) : Result :=
  match s.leastHeld with
  | some k => .next (s.setReg x (BitVec.ofNat 8 k.val)).advance
  | none => .next s

/-- `Fx15` (R85). -/
def execLdDtVx (x : Reg) (s : State) : Result := .next (s.setDT (s.reg x)).advance

/-- `Fx18` (R86). -/
def execLdStVx (x : Reg) (s : State) : Result := .next (s.setST (s.reg x)).advance

end Sys2Proof.Machine
end

