-- ==== Sys2Proof/Machine/Step.lean ====
section
/-! DEFINITION. One `step` event (30_encoding.md R39), and where the host places an instruction for the next one. -/

namespace Sys2Proof.Machine

/-- One fetch-decode-execute cycle (30_encoding.md R39). A halted core does nothing (60_exceptions.md R88). Otherwise
`draw_req <- 0`, the word at `pc` is fetched and decoded, and the instruction is executed; a word that matches no row
of the opcode table is a no-operation that holds `pc` (30_encoding.md R47). `draw_req` is cleared here, for every
instruction at once (log entry 28). -/
def step (s : State) : Host.Outcome State Fault Refusal :=
  match s.fault with
  | some _ => .next s
  | none =>
    withFetched s fun w =>
      match decodeWord w with
      | .ok i => exec i (s.setDrawReq false)
      | .error _ => .next (s.setDrawReq false)

/-- Where a state's next instruction is fetched: at `pc`, or at the reset entry point if nothing can be fetched at `pc`
(20_memory.md R27). -/
def State.fetchPlace (s : State) : Nat := if s.pc.toNat > 0xFFE then Config.romBase else s.pc.toNat

/-- `s` with the instruction whose bits are `w` placed where the next step fetches: its two bytes, big-endian, at `pc`
(70_reset_and_hazards.md R106 is the load it stands for). So that the very next step runs it whatever `s` is, the fault
latch is cleared and a `pc` that nothing can be fetched at becomes `0x0200`. Log entry 10. -/
def State.withFetchWord (s : State) (nbits w : Nat) : State :=
  { s with
    mem := s.mem.writeBytes s.fetchPlace (wordBytes (BitVec.ofNat 16 (w % 2 ^ nbits)))
    pc := BitVec.ofNat 16 s.fetchPlace
    fault := none }

end Sys2Proof.Machine
end

