-- ==== Sys2Proof/Machine/Events.lean ====
section
/-! DEFINITION. The four kinds of event that act on the block (00_scope.md R2) and runs of them in any order (R3, R4).
`step` is one of them; the other three are the host's and the countdown engine's. DESIGN CHOICE that they stand beside
`step` and not inside it, log entry 4. -/

namespace Sys2Proof.Machine

/-- One timer counts down: by 1, floor at 0 (60_exceptions.md R97). -/
def countDown (b : Byte) : Byte := if b.toNat > 0 then b - 1 else b

/-- One `tick` of the 60 Hz countdown engine: both timers, and nothing else (R97). -/
def tick (s : State) : State := (s.setDT (countDown s.dt)).setST (countDown s.st)

/-- The host writes the 16 key latches (70_reset_and_hazards.md R107); accepted also while halted (60_exceptions.md
R88). -/
def hostKeys (keys : Vector Bool 16) (s : State) : State := s.setKeys keys

/-- The host writes one byte through the load port: address 12 bits, data 8 bits (00_scope.md R5). -/
def hostLoad (a : Addr12) (b : Byte) (s : State) : State := s.setMem (s.mem.write a.toNat b)

/-- The `reset` event: every element of state takes its reset value (70_reset_and_hazards.md R104), whatever it was
(R102). The random source is outside the block and has no state in it (10_state.md R23), so the model's own counter of
drawn bytes goes on: two runs from reset draw unrelated bytes. Log entry 1. -/
def hostReset (s : State) : State := { State.reset with draws := s.draws }

/-- The events of 00_scope.md R2; `loadByte` and `keys` are the two writes of `host_write`. -/
inductive Event where
  | reset
  | loadByte (a : Addr12) (b : Byte)
  | keys (k : Vector Bool 16)
  | step
  | tick
deriving DecidableEq, Repr

/-- One event (R2), atomic with respect to every other (R3). -/
def applyEvent (e : Event) (s : State) : Result :=
  match e with
  | .reset => .next (hostReset s)
  | .loadByte a b => .next (hostLoad a b s)
  | .keys k => .next (hostKeys k s)
  | .step => step s
  | .tick => .next (tick s)

/-- A run: events one after another, in the order the schedule gives (R3, R4), stopping where the model stops. -/
def runEvents (events : List Event) (s : State) : Result :=
  match events with
  | [] => .next s
  | e :: rest =>
    match applyEvent e s with
    | .next t => runEvents rest t
    | .fault f => .fault f
    | .refused r => .refused r

/-- The load of a program: byte `k` of it to `0x200 + k` through the load port (70_reset_and_hazards.md R106). Its
length must be at most `Config.romMax`, or the load is refused (93_implementation_defined.md U23). -/
def loadProgram (program : List Byte) (s : State) : Result :=
  if program.length > Config.romMax then .refused (.romTooLarge program.length)
  else .next (s.setMem (s.mem.writeBytes Config.romBase program))

/-- A schedule a host keeps to: "the load port is not used after the first step" (70_reset_and_hazards.md R106) until
the next `reset`; `started` says whether a step has been taken. Log entry 9. -/
def hostKeepsTo (started : Bool) (events : List Event) : Bool :=
  match events with
  | [] => true
  | .reset :: rest => hostKeepsTo false rest
  | .loadByte _ _ :: rest => !started && hostKeepsTo started rest
  | .keys _ :: rest => hostKeepsTo started rest
  | .step :: rest => hostKeepsTo true rest
  | .tick :: rest => hostKeepsTo started rest

/-- A run from a state right after `reset`, under a host that may not use the load port after the first step: a schedule
that does is refused (93_implementation_defined.md U23). -/
def hostRun (events : List Event) (s : State) : Result :=
  if hostKeepsTo false events then runEvents events s else .refused .loadAfterFirstStep

/-- Events of a running machine: neither a reset nor a load. -/
def Event.running (e : Event) : Bool :=
  match e with
  | .reset | .loadByte _ _ => false
  | .keys _ | .step | .tick => true

end Sys2Proof.Machine
end

