-- ==== Sys2Proof/Safety.lean ====
section
/-! DEFINITION. What claims about the machine are stated in: the states a run can be in, which state each instruction
may write, and what a sprite draws. -/

namespace Sys2Proof

/-- Which general registers an instruction may write: its destination, the implicit ones of 10_state.md R7, and `VF`
for exactly the flag-writing instructions of R8. -/
def Instr.writesReg (i : Instr) (r : Reg) : Bool :=
  match i with
  | .ldImm x _ | .addImm x _ | .rnd x _ => r = x
  | .ldReg x _ | .or x _ | .and x _ | .xor x _ => r = x
  | .addReg x _ | .sub x _ | .shr x _ | .subn x _ | .shl x _ => r = x || r = 15
  | .drw _ _ _ => r = 15
  | .ldVxDt x | .ldVxK x => r = x
  | .ldRegs x => r ≤ x
  | .cls | .ret | .jp _ | .call _ | .jpV0 _ | .seImm _ _ | .sneImm _ _ | .seReg _ _ | .sneReg _ _ => false
  | .ldI _ | .addI _ | .ldF _ | .ldB _ | .stRegs _ | .skp _ | .sknp _ | .ldDtVx _ | .ldStVx _ => false

/-- The six instructions that write `VF` as a flag (10_state.md R8). -/
def Instr.writesFlag (i : Instr) : Bool :=
  match i with
  | .addReg _ _ | .sub _ _ | .shr _ _ | .subn _ _ | .shl _ _ | .drw _ _ _ => true
  | .cls | .ret | .jp _ | .call _ | .jpV0 _ | .seImm _ _ | .sneImm _ _ | .seReg _ _ | .sneReg _ _ => false
  | .ldImm _ _ | .addImm _ _ | .rnd _ _ | .ldReg _ _ | .or _ _ | .and _ _ | .xor _ _ => false
  | .ldI _ | .addI _ | .ldF _ | .ldB _ | .stRegs _ | .ldRegs _ => false
  | .skp _ | .sknp _ | .ldVxDt _ | .ldVxK _ | .ldDtVx _ | .ldStVx _ => false

/-- How many bytes of memory an instruction stores, from `I` upward (20_memory.md R31). -/
def Instr.bytesStored (i : Instr) : Nat :=
  match i with
  | .ldB _ => 3
  | .stRegs x => x.val + 1
  | .cls | .ret | .jp _ | .call _ | .jpV0 _ | .seImm _ _ | .sneImm _ _ | .seReg _ _ | .sneReg _ _ => 0
  | .ldImm _ _ | .addImm _ _ | .rnd _ _ | .ldReg _ _ | .or _ _ | .and _ _ | .xor _ _ => 0
  | .addReg _ _ | .sub _ _ | .shr _ _ | .subn _ _ | .shl _ _ | .drw _ _ _ => 0
  | .ldI _ | .addI _ | .ldF _ | .ldRegs _ | .skp _ | .sknp _ => 0
  | .ldVxDt _ | .ldVxK _ | .ldDtVx _ | .ldStVx _ => 0

/-- The two instructions of the display controller (10_state.md R21, R22). -/
def Instr.isDisplay (i : Instr) : Prop := i = .cls ∨ ∃ x y n, i = .drw x y n

end Sys2Proof

namespace Sys2Proof.Machine

/-- What a set fault latch says is so (60_exceptions.md R88 to R93): `draw_req` is 0, and `info` is what the fault's
rule records, about a state that has not changed since. -/
def latchTrue (s : State) : Prop :=
  match s.fault with
  | none => True
  | some f =>
    s.drawReq = false ∧
    match f.code with
    | .pcOutOfRange => f.info = s.pc.toNat ∧ 0xFFE < f.info
    | .memOutOfRange => f.info = max s.i.toNat 0x1000
    | .stackOverflow => f.info = s.pc.toNat ∧ s.sp = 15
    | .stackUnderflow => f.info = s.pc.toNat ∧ s.sp = 0
    | .keyIndexOutOfRange => 15 < f.info ∧ f.info ≤ 255

/-- The states the block can be in. -/
structure Inv (s : State) : Prop where
  /-- Memory keeps its canonical form (the model's own). -/
  memWf : s.mem.wf
  /-- `sp` is a legal value (10_state.md R12). -/
  spLegal : s.sp.toNat ≤ 15
  /-- `pc` is at most `0x10FE` (10_state.md R10). -/
  pcRange : s.pc.toNat ≤ 0x10FE
  /-- Every stack entry is the address of a call that was fetched, so at most `0xFFE` (40_control_flow.md R49). -/
  stackRange : ∀ k : Fin 16, (s.stack[k]).toNat ≤ 0xFFE
  /-- A set fault latch speaks the truth. -/
  latch : latchTrue s

/-- The next step raises `PcOutOfRange(pc)` (60_exceptions.md R89). -/
def FetchFaults (s : State) : Prop :=
  step s = .next { s with fault := some ⟨.pcOutOfRange, s.pc.toNat⟩, drawReq := false }

/-- Is the pixel `(px, py)` under a set bit of the `n`-row sprite at `I`, drawn with its origin at `(x0, y0)`?
(43_display.md R77: sprite row `r` on screen row `y0 + r`, bit `7 - c` on screen column `x0 + c`.) -/
def spriteBit (s : State) (x0 y0 n px py : Nat) : Bool :=
  x0 ≤ px && px < x0 + 8 && y0 ≤ py && py < y0 + n && (s.mem.read (s.i.toNat + (py - y0))).getLsbD (7 - (px - x0))

/-- The rows that a `Dxyn` with origin row `y0` reads all exist (43_display.md R79). -/
def SpriteInMemory (s : State) (y0 n : Nat) : Prop := min n (32 - y0) = 0 ∨ s.i.toNat + min n (32 - y0) ≤ 0x1000

end Sys2Proof.Machine
end

