-- ==== Sys2Proof/Certificates/Slice0/Obligations.lean ====
section
/-! DEFINITION. The statements for the provers, from the numbered rules of spec/. A statement that rests on a decision
the spec marks as its own (a row D<n> of 92_eei_decisions.md) says so. -/

open Sys2Proof Sys2Proof.Machine

/-! ### Encoding (30_encoding.md) -/

/-- R44, R45: every well-formed instruction, with every value its fields admit, decodes from its word, and from its two
bytes whatever follows them. The numbering and the widths compared are the spec's own decisions D13, D14, D15. -/
def Obligations.DecodeOfEncode : Prop :=
  ∀ i : Instr, i.wellFormed = true →
    decodeWord (encode i) = .ok i ∧ ∀ rest, decode (wordBytes (encode i) ++ rest) = .ok (i, rest)

/-- R44, R45: a word that decodes gives a well-formed instruction, whose encoding is that word, but for the low nibble
of families 5 and 9, which is not examined (the spec's own decision D15, log entry 12) and encodes as 0. -/
def Obligations.EncodeOfDecode : Prop :=
  ∀ (w : Word) (i : Instr), decodeWord w = .ok i →
    i.wellFormed = true ∧
    encode i = if fieldF w = 0x5#4 ∨ fieldF w = 0x9#4 then w &&& 0xFFF0#16 else w

/-- R44, R46 and the table of section 4: a word that a row of the table covers decodes to the row's instruction, and a
word that no row covers is unmatched. The masks are the spec's own decision D15. -/
def Obligations.DecodeFollowsOpcodeTable : Prop :=
  (∀ w, ∀ r ∈ opcodeTable, r.covers w = true → ∃ i, decodeWord w = .ok i ∧ i.mnemonic = r.mnemonic) ∧
  (∀ w, (∀ r ∈ opcodeTable, r.covers w = false) → decodeWord w = .error (.unmatched w))

/-- R46: "The 34 patterns are pairwise disjoint under the masks of rule R44": two rows differ in a bit that both
compare. -/
def Obligations.OpcodeRowsDisjoint : Prop :=
  opcodeTable.length = 34 ∧
  opcodeTable.Pairwise (fun r q => r.pattern &&& (r.mask &&& q.mask) ≠ q.pattern &&& (r.mask &&& q.mask))

/-- Words written out from the encodings of section 4, one each of the families 0, 2, 5, 6, 8, D, E and F; each is the
instruction it stands for, and one word each of the families with an unmatched case (0, 8, E, F) is none
(95_test_vectors.md T-DEC-3 to T-DEC-7). The clauses about `0x5127` and the four unmatched words rest on the spec's own
decision D15 (log entry 12), that `0x812E` is the shift left and `0x8128` nothing on its decision D13 (log entry 17). -/
def Obligations.SampleWordsDecode : Prop :=
  decodeWord 0b0000000011100000#16 = .ok .cls ∧
  decodeWord 0b0010001100000000#16 = .ok (.call 0x300) ∧
  decodeWord 0b0101000100100111#16 = .ok (.seReg 1 2) ∧
  decodeWord 0b0110000110101011#16 = .ok (.ldImm 1 0xAB) ∧
  decodeWord 0b1000000100101110#16 = .ok (.shl 1 2) ∧
  decodeWord 0b1101000100100101#16 = .ok (.drw 1 2 5) ∧
  decodeWord 0b1110001110011110#16 = .ok (.skp 3) ∧
  decodeWord 0b1111001001010101#16 = .ok (.stRegs 2) ∧
  decodeWord 0x0AEE#16 = .error (.unmatched 0x0AEE) ∧
  decodeWord 0x8128#16 = .error (.unmatched 0x8128) ∧
  decodeWord 0xE19F#16 = .error (.unmatched 0xE19F) ∧
  decodeWord 0xF108#16 = .error (.unmatched 0xF108)

/-- R25: the fetched word is `mem[pc0] ++ mem[pc0+1]`, as a number `mem[pc0]*256 + mem[pc0+1]`; the family nibble and
`x` come from the byte at `pc0`, `y` and `n` (or `nn`) from the byte at `pc0+1`; and that number is the word a step
executes. -/
def Obligations.FetchIsBigEndian : Prop :=
  ∀ (s : State) (a : Nat),
    (s.wordAt a).toNat = (s.mem.read a).toNat * 256 + (s.mem.read (a + 1)).toNat ∧
    (fieldF (s.wordAt a)).toNat = (s.mem.read a).toNat / 16 ∧
    (fieldX (s.wordAt a)).val = (s.mem.read a).toNat % 16 ∧
    (fieldY (s.wordAt a)).val = (s.mem.read (a + 1)).toNat / 16 ∧
    (fieldN (s.wordAt a)).toNat = (s.mem.read (a + 1)).toNat % 16 ∧
    fieldNN (s.wordAt a) = s.mem.read (a + 1) ∧
    (a = s.pc.toNat → a ≤ 0xFFE → s.fault = none →
      ∀ i, decodeWord (BitVec.ofNat 16 ((s.mem.read a).toNat * 256 + (s.mem.read (a + 1)).toNat)) = .ok i →
        step s = exec i { s with drawReq := false })

/-! ### The step (30_encoding.md R39, R47; 60_exceptions.md R88, R89) -/

/-- R39: when the core is not halted and the two bytes at `pc` decode to an instruction, the step is that instruction's
meaning on the state with `draw_req` cleared. -/
def Obligations.StepRunsDecodedInstruction : Prop :=
  ∀ (s : State) (i : Instr) (rest : List Byte), s.fault = none → s.pc.toNat ≤ 0xFFE →
    decode (s.mem.read s.pc.toNat :: s.mem.read (s.pc.toNat + 1) :: rest) = .ok (i, rest) →
    step s = exec i { s with drawReq := false }

/-- R47 (the spec's own decision D16): an unmatched word is a no-operation that does not advance, and no run of steps,
ticks and key writes gets past it: only the timers, the key latches and `draw_req` ever differ. -/
def Obligations.UnmatchedWordHangs : Prop :=
  ∀ (s : State) (e : DecodeReject), s.fault = none → s.pc.toNat ≤ 0xFFE →
    decodeWord (s.wordAt s.pc.toNat) = .error e →
    step s = .next { s with drawReq := false } ∧
    ∀ events : List Event, (∀ ev ∈ events, ev.running = true) →
      ∃ t, runEvents events s = .next t ∧
        t = { s with dt := t.dt, st := t.st, key := t.key, drawReq := t.drawReq }

/-- R27, R89 (the spec's own decision D7): a fetch above `0xFFE` raises `PcOutOfRange(pc0)`; nothing else changes but
`draw_req`, whatever lies in memory. -/
def Obligations.FetchOutOfRangeFaults : Prop :=
  ∀ s : State, s.fault = none → 0xFFE < s.pc.toNat →
    step s = .next { s with fault := some ⟨.pcOutOfRange, s.pc.toNat⟩, drawReq := false } ∧
    FaultCode.pcOutOfRange.number = 1

/-- R88 (the spec's own decision D5): a halted core ignores every later step, the first fault stays recorded, ticks and
key writes still act, and `reset` clears the latch. -/
def Obligations.HaltedUntilReset : Prop :=
  ∀ (s : State) (f : FaultRecord), s.fault = some f →
    step s = .next s ∧
    (∀ events : List Event, (∀ ev ∈ events, ev.running = true) →
      ∃ t, runEvents events s = .next t ∧ t = { s with dt := t.dt, st := t.st, key := t.key }) ∧
    (∃ t, applyEvent .tick s = .next t ∧ t.dt.toNat = s.dt.toNat - 1 ∧ t.st.toNat = s.st.toNat - 1) ∧
    (∀ k, ∃ t, applyEvent (.keys k) s = .next t ∧ t.key = k) ∧
    ∃ t, applyEvent .reset s = .next t ∧ t.fault = none

/-- R88 (the spec's own decision D5): faults are precise. A step that sets the latch changes nothing else but
`draw_req`, which is 0. -/
def Obligations.FaultsArePrecise : Prop :=
  ∀ s t : State, step s = .next t → t.fault ≠ s.fault → t = { s with fault := t.fault, drawReq := false }

/-! ### Reset, load, and the states a run can be in -/

/-- The font table of 10_state.md R18, a second time: one number per glyph, its five rows from the left. -/
def fontRows : List Nat :=
  [0xF0909090F0, 0x2060202070, 0xF010F080F0, 0xF010F010F0, 0x9090F01010, 0xF080F010F0, 0xF080F090F0, 0xF010204040,
   0xF090F090F0, 0xF090F010F0, 0xF090F09090, 0xE090E090E0, 0xF0808080F0, 0xE0909090E0, 0xF080F080F0, 0xF080F08080]

/-- R104: the state after reset. `pc`, `sp`, the blank framebuffer and the presence of the font are the source's; the
other zeros are the spec's own decision D3 (log entry 5), the font bytes its decision D4 (log entry 6). A `reset` event
gives this state whatever the state was, but for the model's own counter of drawn bytes (log entry 1). -/
def Obligations.ResetState : Prop :=
  (∀ r : Reg, State.reset.reg r = 0) ∧ State.reset.i = 0 ∧ State.reset.pc = 0x0200 ∧ State.reset.sp = 0 ∧
  (∀ k : Fin 16, State.reset.stack[k] = 0) ∧ State.reset.dt = 0 ∧ State.reset.st = 0 ∧
  (∀ g < 16, ∀ j < 5,
    (State.reset.mem.read (5 * g + j)).toNat = (fontRows.getD g 0 / 256 ^ (4 - j)) % 256) ∧
  (∀ a, 80 ≤ a → State.reset.mem.read a = 0) ∧
  (∀ k : Fin 16, State.reset.held k = false) ∧ (∀ j < 2048, State.reset.fb.cell j = false) ∧
  State.reset.drawReq = false ∧ State.reset.fault = none ∧
  ∀ s : State, applyEvent .reset s = .next { State.reset with draws := s.draws }

/-- R103: after `reset`, and after whatever the host loads, execution begins at `0x0200`: the first step executes the
instruction that stands there. -/
def Obligations.ExecutionBeginsAtRomBase : Prop :=
  ∀ (s : State) (loads : List (Addr12 × Byte)),
    ∃ t, runEvents (.reset :: loads.map (fun l => .loadByte l.1 l.2)) s = .next t ∧
      t.pc = 0x0200 ∧
      ∀ i, decodeWord (t.wordAt 0x200) = .ok i → step t = exec i { t with drawReq := false }

/-- R106: the load of a program of at most 3584 bytes writes byte `k` to `0x200 + k`, and leaves every other byte of
memory and everything else as it was; the empty program hangs on the unmatched word `0x0000`. That a longer program is
refused is the spec's own decision U23, its form the model's (log entry 9). -/
def Obligations.ProgramLoad : Prop :=
  ∀ (program : List Byte) (s : State),
    (program.length ≤ 3584 →
      ∃ t, loadProgram program s = .next t ∧
        (∀ k < program.length, some (t.mem.read (0x200 + k)) = program[k]?) ∧
        (∀ a, (a < 0x200 ∨ 0x200 + program.length ≤ a) → t.mem.read a = s.mem.read a) ∧
        t = { s with mem := t.mem }) ∧
    (3584 < program.length → loadProgram program s = .refused (.romTooLarge program.length)) ∧
    ∃ t, loadProgram [] State.reset = .next t ∧ step t = .next t

/-- R106, 93_implementation_defined.md U23: a schedule of a reset, any loads and then steps, ticks and key writes runs; one
that uses the load port after a step without a reset between is refused. The refusal is the spec's own decision U23, its
form the model's (log entry 9). -/
def Obligations.LoadPortClosesAtFirstStep : Prop :=
  ∀ (s : State) (loads : List (Addr12 × Byte)) (before events : List Event) (a : Addr12) (b : Byte),
    (∀ ev ∈ events, ev.running = true) →
    hostRun (.reset :: (loads.map (fun l => .loadByte l.1 l.2) ++ events)) s =
      runEvents (.reset :: (loads.map (fun l => .loadByte l.1 l.2) ++ events)) s ∧
    hostRun (before ++ .step :: (events ++ [.loadByte a b])) s = .refused .loadAfterFirstStep

/-- 00_scope.md R2, R5, 70_reset_and_hazards.md R106, R107: a write through the load port sets the one byte at its
12-bit address, a write of the key latches sets all sixteen of them, and neither changes anything else. That the model
takes both at any time is log entries 4 and 9. -/
def Obligations.HostWritesTouchOnlyTheirTarget : Prop :=
  ∀ (s : State) (a : Addr12) (b : Byte) (keys : Vector Bool 16),
    (∃ t, applyEvent (.loadByte a b) s = .next t ∧ t.mem.read a.toNat = b ∧
      (∀ c, c ≠ a.toNat → t.mem.read c = s.mem.read c) ∧ t = { s with mem := t.mem }) ∧
    applyEvent (.keys keys) s = .next { s with key := keys }

/-- The state after reset is one the block can be in. -/
def Obligations.ResetMeetsInvariant : Prop := Inv State.reset

/-- From every state the block can be in, a step leads to one: memory keeps its canonical form, `sp` stays a legal
value (10_state.md R12), `pc` at most `0x10FE` (R10), stack entries at most `0xFFE` (40_control_flow.md R49), and a set
fault latch tells the truth (60_exceptions.md R88 to R93). -/
def Obligations.StepKeepsInvariant : Prop := ∀ s t : State, Inv s → step s = .next t → Inv t

/-- From every state the block can be in, a step completes: the model stops on no instruction and on no word. That a fault
and an unmatched word are steps too is the spec's own decisions D5 and D16 (log entries 2, 25). -/
def Obligations.EveryStepCompletes : Prop := ∀ s : State, Inv s → ∃ t, step s = .next t

/-- The same for every schedule of resets, loads, key writes, steps and ticks (00_scope.md R2 to R4): every run
completes, in a state the block can be in. R2, R106 and 93_implementation_defined.md U23 shut out a load after the first
step; that `runEvents` runs such schedules too, and key writes at any time, is the model's own choice (log entries 9, 4),
and `LoadPortClosesAtFirstStep` says what a host may do. -/
def Obligations.EveryRunCompletesAndKeepsInvariant : Prop :=
  ∀ (events : List Event) (s : State), Inv s → ∃ t, runEvents events s = .next t ∧ Inv t

/-! ### Frames: what an instruction leaves unchanged -/

/-- 10_state.md R7, R8: every general register is unchanged but those the instruction writes, and when a flag-writing
instruction completes, `VF` holds 0 or 1. With the write order of the spec's own decision D9. -/
def Obligations.RegisterFrame : Prop :=
  ∀ (i : Instr) (s t : State), exec i s = .next t →
    (∀ r : Reg, i.writesReg r = false → t.reg r = s.reg r) ∧
    (i.writesFlag = true → t.fault = none → t.reg 15 = 0 ∨ t.reg 15 = 1)

/-- 10_state.md R15, 20_memory.md R31: every byte of memory is unchanged but the bytes the instruction stores to: none,
or three or `x + 1` bytes from `I` upward. -/
def Obligations.MemoryFrame : Prop :=
  ∀ (i : Instr) (s t : State), exec i s = .next t →
    (∀ a, (a < baseAddress s ∨ baseAddress s + i.bytesStored ≤ a) → t.mem.read a = s.mem.read a) ∧
    (i.bytesStored = 0 → t.mem = s.mem)

/-- 10_state.md R11 to R14, R20, R21: who writes the other state. `sp` and the stack: `00EE`, `2nnn`. `I`: `Annn`,
`Fx1E`, `Fx29`. `DT`: `Fx15`. `ST`: `Fx18`. The framebuffer: `00E0`, `Dxyn`. The key latches: no instruction. The
model's own counter: `Cxnn`. -/
def Obligations.ControlStateFrame : Prop :=
  ∀ (i : Instr) (s t : State), exec i s = .next t →
    (i ≠ .ret → (∀ nnn, i ≠ .call nnn) → t.sp = s.sp) ∧
    ((∀ nnn, i ≠ .call nnn) → t.stack = s.stack) ∧
    ((∀ nnn, i ≠ .ldI nnn) → (∀ x, i ≠ .addI x) → (∀ x, i ≠ .ldF x) → t.i = s.i) ∧
    ((∀ x, i ≠ .ldDtVx x) → t.dt = s.dt) ∧
    ((∀ x, i ≠ .ldStVx x) → t.st = s.st) ∧
    (¬ i.isDisplay → t.fb = s.fb) ∧
    t.key = s.key ∧
    ((∀ x nn, i ≠ .rnd x nn) → t.draws = s.draws)

/-- 10_state.md R22 (the spec's own decision D18): `draw_req` is 1 at the end of a step exactly when the step did not
fault and the word executed was `00E0` or a `Dxyn`. -/
def Obligations.DrawRequestExactlyForDisplay : Prop :=
  ∀ s t : State, s.fault = none → step s = .next t →
    (t.drawReq = true ↔
      t.fault = none ∧ s.pc.toNat ≤ 0xFFE ∧ ∃ i, decodeWord (s.wordAt s.pc.toNat) = .ok i ∧ i.isDisplay)

/-- 10_state.md R14 (`ST`: "no instruction reads it"): two states that differ only in `ST` step to states that differ
only in `ST`. -/
def Obligations.SoundTimerNeverObserved : Prop :=
  ∀ (s t : State) (a : Byte), step s = .next t → ∃ b, step { s with st := a } = .next { t with st := b }

/-! ### Control transfer (40_control_flow.md) -/

/-- R50: `1nnn` sets `pc` to `nnn` and changes nothing else; a jump to itself changes nothing at all; and
`nnn = 0xFFF` makes the next step raise `PcOutOfRange(0x0FFF)`, which is the spec's own decision D7 (log entry 24). -/
def Obligations.JumpSetsPc : Prop :=
  ∀ (nnn : Addr12) (s : State),
    decodeWord (0x1#4 ++ nnn) = .ok (.jp nnn) ∧
    exec (.jp nnn) s = .next { s with pc := nnn.setWidth 16 } ∧
    (s.pc = nnn.setWidth 16 → exec (.jp nnn) s = .next s) ∧
    (nnn = 0xFFF → s.fault = none → FetchFaults { s with pc := nnn.setWidth 16 })

/-- R56 (the spec's own decision D7: no masking to 12 bits): `Bnnn` sets `pc` to `nnn + V0` and changes nothing
else; the sum never wraps. -/
def Obligations.JumpOffsetByV0 : Prop :=
  ∀ (nnn : Addr12) (s : State), ∃ t, exec (.jpV0 nnn) s = .next t ∧
    t.pc.toNat = nnn.toNat + (s.reg 0).toNat ∧ t = { s with pc := t.pc }

/-- R51 (the spec's own decision D8): with fewer than 15 return addresses on the stack, `2nnn` increments `sp`, stores
`pc0` in the entry that `sp` then names, jumps, and changes nothing else. -/
def Obligations.CallPushesAndJumps : Prop :=
  ∀ (nnn : Addr12) (s : State), s.sp.toNat < 15 →
    ∃ t, exec (.call nnn) s = .next t ∧
      t.sp.toNat = s.sp.toNat + 1 ∧ t.stack[s.sp.toNat + 1]? = some s.pc ∧
      (∀ k : Fin 16, k.val ≠ s.sp.toNat + 1 → t.stack[k] = s.stack[k]) ∧
      t.pc.toNat = nnn.toNat ∧ t = { s with sp := t.sp, stack := t.stack, pc := t.pc }

/-- R49 (the spec's own decision D8): with a return address on the stack, `00EE` sets `pc` to `stack[sp] + 2`,
decrements `sp`, and changes nothing else: the popped entry keeps its contents. -/
def Obligations.ReturnPops : Prop :=
  ∀ (s : State) (k : Fin 16), s.sp.toNat = k.val → 0 < k.val →
    ∃ t, exec .ret s = .next t ∧ t.pc = s.stack[k] + 2 ∧ t.sp.toNat + 1 = s.sp.toNat ∧
      t = { s with sp := t.sp, pc := t.pc }

/-- R91, R92 (the spec's own decisions D5, D8): the 16th nested call raises `StackOverflow(pc0)`, a return from the
empty stack `StackUnderflow(pc0)`. In a state whose `sp` is no legal value the model stops by name: the model's own
choice, log entry 3. -/
def Obligations.StackFaults : Prop :=
  ∀ (nnn : Addr12) (s : State),
    (s.sp.toNat = 15 →
      exec (.call nnn) s = .next { s with fault := some ⟨.stackOverflow, s.pc.toNat⟩, drawReq := false }) ∧
    (s.sp.toNat = 0 →
      exec .ret s = .next { s with fault := some ⟨.stackUnderflow, s.pc.toNat⟩, drawReq := false }) ∧
    (15 < s.sp.toNat → exec (.call nnn) s = .fault .spNotLegal ∧ exec .ret s = .fault .spNotLegal) ∧
    FaultCode.stackOverflow.number = 3 ∧ FaultCode.stackUnderflow.number = 4

/-- R49, R51 (§8 of the source, 95_test_vectors.md S5; decision D8): "a `2nnn` call followed immediately by `00EE`
returns pc to `call_pc + 2` ... leaving sp unchanged from its pre-call value". -/
def Obligations.CallThenReturn : Prop :=
  ∀ (nnn : Addr12) (s : State), s.sp.toNat < 15 →
    ∃ t u, exec (.call nnn) s = .next t ∧ exec .ret t = .next u ∧
      u.pc = s.pc + 2 ∧ u.sp = s.sp ∧ u = { s with pc := u.pc, stack := u.stack }

/-- R52: `3xnn` sets `pc` to `pc0 + 4` if `Vx = nn` and to `pc0 + 2` otherwise, and changes nothing else; at `0xFFE`
both make the next fetch fault, which is the spec's own decision D7 (log entry 24). -/
def Obligations.SkipIfEqualImmediate : Prop :=
  ∀ (x : Reg) (nn : Byte) (s : State),
    decodeWord (0x3#4 ++ (regBits x ++ nn)) = .ok (.seImm x nn) ∧
    (s.reg x = nn → exec (.seImm x nn) s = .next { s with pc := s.pc + 4 }) ∧
    (s.reg x ≠ nn → exec (.seImm x nn) s = .next { s with pc := s.pc + 2 }) ∧
    (s.pc = 0xFFE → s.fault = none → ∃ t, exec (.seImm x nn) s = .next t ∧ FetchFaults t)

/-- R53: `4xnn` sets `pc` to `pc0 + 4` if `Vx != nn` and to `pc0 + 2` otherwise, and changes nothing else; at `0xFFE`
both make the next fetch fault, which is the spec's own decision D7 (log entry 24). -/
def Obligations.SkipIfNotEqualImmediate : Prop :=
  ∀ (x : Reg) (nn : Byte) (s : State),
    decodeWord (0x4#4 ++ (regBits x ++ nn)) = .ok (.sneImm x nn) ∧
    (s.reg x ≠ nn → exec (.sneImm x nn) s = .next { s with pc := s.pc + 4 }) ∧
    (s.reg x = nn → exec (.sneImm x nn) s = .next { s with pc := s.pc + 2 }) ∧
    (s.pc = 0xFFE → s.fault = none → ∃ t, exec (.sneImm x nn) s = .next t ∧ FetchFaults t)

/-- R54: `5xy0` sets `pc` to `pc0 + 4` if `Vx = Vy` (always if `x = y`) and to `pc0 + 2` otherwise, and changes
nothing else. The last clause, that the low nibble of the word is not examined, is the spec's own decision D15. -/
def Obligations.SkipIfRegistersEqual : Prop :=
  ∀ (x y : Reg) (s : State),
    (s.reg x = s.reg y → exec (.seReg x y) s = .next { s with pc := s.pc + 4 }) ∧
    (s.reg x ≠ s.reg y → exec (.seReg x y) s = .next { s with pc := s.pc + 2 }) ∧
    exec (.seReg x x) s = .next { s with pc := s.pc + 4 } ∧
    ∀ n : Nibble, decodeWord (0x5#4 ++ (regBits x ++ (regBits y ++ n))) = .ok (.seReg x y)

/-- R55: `9xy0` sets `pc` to `pc0 + 4` if `Vx != Vy` and to `pc0 + 2` otherwise (always if `x = y`), and changes
nothing else. The last clause, that the low nibble of the word is not examined, is the spec's own decision D15. -/
def Obligations.SkipIfRegistersDiffer : Prop :=
  ∀ (x y : Reg) (s : State),
    (s.reg x ≠ s.reg y → exec (.sneReg x y) s = .next { s with pc := s.pc + 4 }) ∧
    (s.reg x = s.reg y → exec (.sneReg x y) s = .next { s with pc := s.pc + 2 }) ∧
    exec (.sneReg x x) s = .next { s with pc := s.pc + 2 } ∧
    ∀ n : Nibble, decodeWord (0x9#4 ++ (regBits x ++ (regBits y ++ n))) = .ok (.sneReg x y)

/-! ### Load, arithmetic, logic, shift, random (41_alu.md) -/

/-- R58: `6xnn` writes `nn` to `Vx`, `VF` included, advances, and changes nothing else. -/
def Obligations.LoadImmediate : Prop :=
  ∀ (x : Reg) (nn : Byte) (s : State),
    decodeWord (0x6#4 ++ (regBits x ++ nn)) = .ok (.ldImm x nn) ∧
    exec (.ldImm x nn) s = .next { s with v := s.v.set x nn, pc := s.pc + 2 }

/-- R59: `7xnn` adds `nn` to `Vx` modulo 256, advances, and changes nothing else: no flag, also when the addition
wraps. -/
def Obligations.AddImmediateNoFlag : Prop :=
  ∀ (x : Reg) (nn : Byte) (s : State), decodeWord (0x7#4 ++ (regBits x ++ nn)) = .ok (.addImm x nn) ∧
    ∃ t, exec (.addImm x nn) s = .next t ∧
    (t.reg x).toNat = ((s.reg x).toNat + nn.toNat) % 256 ∧ (∀ r, r ≠ x → t.reg r = s.reg r) ∧
    t = { s with v := t.v, pc := s.pc + 2 }

/-- R60 to R63: `8xy0` copies, `8xy1`, `8xy2`, `8xy3` are the bitwise OR, AND, exclusive OR; each advances and changes
nothing else, `VF` included. The numbering is the spec's own decision D13, that `VF` is left alone its decision D12
(log entries 16, 17). -/
def Obligations.CopyAndLogic : Prop :=
  ∀ (x y : Reg) (s : State),
    exec (.ldReg x y) s = .next { s with v := s.v.set x (s.reg y), pc := s.pc + 2 } ∧
    exec (.or x y) s = .next { s with v := s.v.set x (s.reg x ||| s.reg y), pc := s.pc + 2 } ∧
    exec (.and x y) s = .next { s with v := s.v.set x (s.reg x &&& s.reg y), pc := s.pc + 2 } ∧
    exec (.xor x y) s = .next { s with v := s.v.set x (s.reg x ^^^ s.reg y), pc := s.pc + 2 }

/-- R64, R69: `8xy4` writes the sum modulo 256 to `Vx`, then the carry to `VF`, which wins when `x = F`; the operands
are those before the operation. The write order is the spec's own decision D9 (log entry 13). -/
def Obligations.AddWithCarry : Prop :=
  ∀ (x y : Reg) (s : State), ∃ t, exec (.addReg x y) s = .next t ∧
    t.reg 15 = (if (s.reg x).toNat + (s.reg y).toNat > 255 then 1 else 0) ∧
    (x ≠ 15 → (t.reg x).toNat = ((s.reg x).toNat + (s.reg y).toNat) % 256) ∧
    (∀ r, r ≠ x → r ≠ 15 → t.reg r = s.reg r) ∧
    t = { s with v := t.v, pc := s.pc + 2 }

/-- R65, R67, R69: `8xy5` writes `Vx - Vy`, `8xy7` writes `Vy - Vx`, modulo 256, to `Vx`, then 1 to `VF` if nothing was
borrowed and 0 if something was. Which is which is the spec's own decision D13, the polarity D10, the write order D9
(log entries 17, 14, 13). -/
def Obligations.Subtractions : Prop :=
  ∀ (x y : Reg) (s : State),
    (∃ t, exec (.sub x y) s = .next t ∧
      t.reg 15 = (if (s.reg x).toNat ≥ (s.reg y).toNat then 1 else 0) ∧
      (x ≠ 15 → t.reg x = s.reg x - s.reg y) ∧
      (∀ r, r ≠ x → r ≠ 15 → t.reg r = s.reg r) ∧
      t = { s with v := t.v, pc := s.pc + 2 }) ∧
    (∃ t, exec (.subn x y) s = .next t ∧
      t.reg 15 = (if (s.reg y).toNat ≥ (s.reg x).toNat then 1 else 0) ∧
      (x ≠ 15 → t.reg x = s.reg y - s.reg x) ∧
      (∀ r, r ≠ x → r ≠ 15 → t.reg r = s.reg r) ∧
      t = { s with v := t.v, pc := s.pc + 2 })

/-- R66, R68, R69: `8xy6` halves `Vx`, `8xyE` doubles it modulo 256, and `VF` becomes the bit shifted out. That `Vx`
and not `Vy` is shifted is the spec's own decision D11, the write order D9 (log entries 15, 13). -/
def Obligations.Shifts : Prop :=
  ∀ (x y : Reg) (s : State),
    (∃ t, exec (.shr x y) s = .next t ∧
      (t.reg 15).toNat = (s.reg x).toNat % 2 ∧
      (x ≠ 15 → (t.reg x).toNat = (s.reg x).toNat / 2) ∧
      (∀ r, r ≠ x → r ≠ 15 → t.reg r = s.reg r) ∧
      t = { s with v := t.v, pc := s.pc + 2 }) ∧
    (∃ t, exec (.shl x y) s = .next t ∧
      (t.reg 15).toNat = (s.reg x).toNat / 128 ∧
      (x ≠ 15 → (t.reg x).toNat = (s.reg x).toNat * 2 % 256) ∧
      (∀ r, r ≠ x → r ≠ 15 → t.reg r = s.reg r) ∧
      t = { s with v := t.v, pc := s.pc + 2 })

/-- R70: `Cxnn` writes `r & nn` to `Vx` for some byte `r`, advances, and changes nothing else of the block. The byte is
free (log entry 1): the bits of `Vx` outside the mask are 0, so `nn = 0x00` always gives 0, and `nn = 0xFF` passes the
free byte through. The counter that selects the next free byte is the model's own. -/
def Obligations.RandomUnderMask : Prop :=
  ∀ (x : Reg) (nn : Byte) (s : State), ∃ t r, exec (.rnd x nn) s = .next t ∧
    t.reg x = r &&& nn ∧ t.reg x &&& ~~~nn = 0 ∧ (nn = 0x00 → t.reg x = 0) ∧
    (nn = 0xFF → t.reg x = r) ∧ r = Config.rndByte s.draws ∧
    (∀ q, q ≠ x → t.reg q = s.reg q) ∧
    t = { s with v := t.v, pc := s.pc + 2, draws := s.draws + 1 }

/-! ### Index and memory (42_index_memory.md) -/

/-- R71: `Annn` writes `nnn` to `I`, whose upper four bits become 0, advances, and changes nothing else. -/
def Obligations.LoadIndex : Prop :=
  ∀ (nnn : Addr12) (s : State), decodeWord (0xA#4 ++ nnn) = .ok (.ldI nnn) ∧ ∃ t, exec (.ldI nnn) s = .next t ∧
    t.i.toNat = nnn.toNat ∧ t.i.toNat ≤ 0x0FFF ∧ t = { s with i := t.i, pc := s.pc + 2 }

/-- R72, R73: `Fx1E` adds `Vx` to `I` modulo 65536 and writes no flag (the spec's own decision D6); `Fx29` sets `I` to
five times the whole of `Vx` (decision D20). Each advances and changes nothing else. -/
def Obligations.IndexArithmetic : Prop :=
  ∀ (x : Reg) (s : State),
    (∃ t, exec (.addI x) s = .next t ∧ t.i.toNat = (s.i.toNat + (s.reg x).toNat) % 65536 ∧
      t = { s with i := t.i, pc := s.pc + 2 }) ∧
    (∃ t, exec (.ldF x) s = .next t ∧ t.i.toNat = (s.reg x).toNat * 5 ∧
      t = { s with i := t.i, pc := s.pc + 2 })

/-- R73 with 10_state.md R17, R18: while the font table is as reset left it, `Fx29` on a digit 0 to 15 leaves `I` at the
first of that glyph's five rows. The glyphs are the spec's own decision D4 (log entry 6), the address rule its D20. -/
def Obligations.GlyphAddressFindsGlyph : Prop :=
  ∀ (x : Reg) (g : Nat) (s : State), (∀ a < 80, s.mem.read a = State.reset.mem.read a) → (s.reg x).toNat = g → g < 16 →
    ∃ t, exec (.ldF x) s = .next t ∧
      ∀ j < 5, (t.mem.read (t.i.toNat + j)).toNat = (fontRows.getD g 0 / 256 ^ (4 - j)) % 256

/-- R74 (range: the spec's own decision D6): `Fx33` writes hundreds, tens and ones of `Vx` to `I`, `I+1`, `I+2`, each a
number 0 to 9, leaves every other byte, `I` and the registers alone, and advances. -/
def Obligations.StoreDecimalDigits : Prop :=
  ∀ (x : Reg) (s : State), s.i.toNat + 2 ≤ 0xFFF →
    ∃ t, exec (.ldB x) s = .next t ∧
      (t.mem.read (baseAddress s)).toNat * 100 + (t.mem.read (baseAddress s + 1)).toNat * 10 +
        (t.mem.read (baseAddress s + 2)).toNat = (s.reg x).toNat ∧
      (∀ k < 3, (t.mem.read (baseAddress s + k)).toNat ≤ 9) ∧
      (∀ a, (a < baseAddress s ∨ baseAddress s + 3 ≤ a) → t.mem.read a = s.mem.read a) ∧
      t = { s with mem := t.mem, pc := s.pc + 2 }

/-- R75 (`I` unmoved: the spec's own decision D19): `Fx55` writes `V[k]` to `I + k` for `k` from 0 to `x`, leaves every
other byte, `I` and the registers alone, and advances. -/
def Obligations.StoreRegisters : Prop :=
  ∀ (x : Reg) (s : State), s.i.toNat + x.val ≤ 0xFFF →
    ∃ t, exec (.stRegs x) s = .next t ∧
      (∀ k : Reg, k ≤ x → t.mem.read (baseAddress s + k.val) = s.reg k) ∧
      (∀ a, (a < baseAddress s ∨ baseAddress s + (x.val + 1) ≤ a) → t.mem.read a = s.mem.read a) ∧
      t = { s with mem := t.mem, pc := s.pc + 2 }

/-- R76 (`I` unmoved: the spec's own decision D19): `Fx65` loads `V[k]` from `I + k` for `k` from 0 to `x`, leaves the
registers above `Vx`, `I` and memory alone, and advances. -/
def Obligations.LoadRegisters : Prop :=
  ∀ (x : Reg) (s : State), s.i.toNat + x.val ≤ 0xFFF →
    ∃ t, exec (.ldRegs x) s = .next t ∧
      (∀ k : Reg, k ≤ x → t.reg k = s.mem.read (baseAddress s + k.val)) ∧
      (∀ k : Reg, x < k → t.reg k = s.reg k) ∧
      t = { s with v := t.v, pc := s.pc + 2 }

/-- R75, R76 (§8 of the source, 95_test_vectors.md S2; decision D19): "`Fx55` followed by `Fx65` with the same `x` and
`I` restores `V0..Vx` to their pre-`Fx55` values", whatever the registers held in between. -/
def Obligations.StoreThenLoadRestoresRegisters : Prop :=
  ∀ (x : Reg) (s : State) (v : Vector Byte 16), s.i.toNat + x.val ≤ 0xFFF →
    ∃ t u, exec (.stRegs x) s = .next t ∧ exec (.ldRegs x) { t with v := v } = .next u ∧
      (∀ k : Reg, k ≤ x → u.reg k = s.reg k) ∧ (∀ k : Reg, x < k → u.reg k = v[k]) ∧ u.i = s.i

/-- R90 (the spec's own decision D6): `Fx33`, `Fx55`, `Fx65` and `Dxyn` raise `MemOutOfRange` when the highest byte they
would access lies above `0xFFF`, with the lowest such address, `max(I, 0x1000)`, and change nothing but `draw_req`. -/
def Obligations.MemoryRangeFaults : Prop :=
  ∀ (s t : State), t = { s with fault := some ⟨.memOutOfRange, max s.i.toNat 0x1000⟩, drawReq := false } →
    FaultCode.memOutOfRange.number = 2 ∧
    (∀ x, s.i.toNat + 2 > 0xFFF → exec (.ldB x) s = .next t) ∧
    (∀ x : Reg, s.i.toNat + x.val > 0xFFF → exec (.stRegs x) s = .next t ∧ exec (.ldRegs x) s = .next t) ∧
    (∀ x y n, ¬ SpriteInMemory s ((s.reg y).toNat % 32) n → exec (.drw x y n) s = .next t)

/-- 20_memory.md R38: a stored byte is what the very next fetch sees. When `Fx55` has stored a word that decodes, a step
at its address executes it. -/
def Obligations.StoresSeenByNextFetch : Prop :=
  ∀ (x k j : Reg) (s t : State) (i : Instr), s.i.toNat + x.val ≤ 0xFFF → s.fault = none →
    j.val = k.val + 1 → j ≤ x → exec (.stRegs x) s = .next t →
    decodeWord (wordOfBytes (s.reg k) (s.reg j)) = .ok i →
    ∀ u, u = { t with pc := BitVec.ofNat 16 (s.i.toNat + k.val) } → step u = exec i { u with drawReq := false }

/-! ### Display (43_display.md) -/

/-- R78: `00E0` turns every cell off, sets `draw_req`, advances, and changes nothing else, `VF` included. -/
def Obligations.ClearScreen : Prop :=
  ∀ s : State, decodeWord 0x00E0#16 = .ok .cls ∧ ∃ t, exec .cls s = .next t ∧ (∀ j < 2048, t.fb.cell j = false) ∧
    t = { s with fb := t.fb, drawReq := true, pc := s.pc + 2 }

/-- R77, R79: `Dxyn` toggles exactly the pixels under the set bits of the sprite, clipped at the right and bottom edges,
with the origin from the old `Vx` and `Vy`; `VF` becomes 1 exactly when one of them was on, else 0; `draw_req` is 1,
whatever `n` is; nothing else changes. The bit order and the corner cases are the spec's own decision D17 (log entry
19). -/
def Obligations.DrawSprite : Prop :=
  ∀ (x y : Reg) (n x0 y0 : Nat) (s : State), x0 = (s.reg x).toNat % 64 → y0 = (s.reg y).toNat % 32 →
    SpriteInMemory s y0 n →
    ∃ t, exec (.drw x y n) s = .next t ∧
      (∀ px < 64, ∀ py < 32, t.fb.pixel px py = (s.fb.pixel px py ^^ spriteBit s x0 y0 n px py)) ∧
      (t.reg 15 = 1 ∨ t.reg 15 = 0) ∧
      (t.reg 15 = 1 ↔ ∃ px < 64, ∃ py < 32, spriteBit s x0 y0 n px py = true ∧ s.fb.pixel px py = true) ∧
      (∀ r, r ≠ 15 → t.reg r = s.reg r) ∧
      t = { s with v := t.v, fb := t.fb, drawReq := true, pc := s.pc + 2 }

/-- R80: of two draws in succession with the same `Vx`, `Vy`, `n`, `I` and sprite, the second restores the framebuffer;
the first sets `VF` exactly when a visible bit lay over a pixel that was on, the second exactly when a visible bit lay
over a pixel that was off before the first. A first draw that changes `Vx` or `Vy` (an origin in `VF`) is no draw with the
same origin, and is left out as R80 leaves it out. With the spec's own decision D17 (log entry 19). -/
def Obligations.DrawTwiceRestores : Prop :=
  ∀ (x y : Reg) (n x0 y0 : Nat) (s t : State), x0 = (s.reg x).toNat % 64 → y0 = (s.reg y).toNat % 32 →
    SpriteInMemory s y0 n → exec (.drw x y n) s = .next t → t.reg x = s.reg x → t.reg y = s.reg y →
    ∃ u, exec (.drw x y n) t = .next u ∧ u.fb = s.fb ∧
      (t.reg 15 = 1 ↔ ∃ px < 64, ∃ py < 32, spriteBit s x0 y0 n px py = true ∧ s.fb.pixel px py = true) ∧
      (u.reg 15 = 1 ↔ ∃ px < 64, ∃ py < 32, spriteBit s x0 y0 n px py = true ∧ s.fb.pixel px py = false)

/-! ### Keys and timers (44_keypad_timers.md, 60_exceptions.md R97) -/

/-- R81, R82, R93: `Ex9E` skips if the key that `Vx` names is held, `ExA1` if it is not; neither changes anything but
`pc`. A `Vx` above 15 raises `KeyIndexOutOfRange(Vx)`: the spec's own decision D21 (log entry 22). -/
def Obligations.KeySkips : Prop :=
  ∀ (x : Reg) (s : State),
    (∀ k : Fin 16, (s.reg x).toNat = k.val →
      exec (.skp x) s = .next { s with pc := if s.key[k] = true then s.pc + 4 else s.pc + 2 } ∧
      exec (.sknp x) s = .next { s with pc := if s.key[k] = false then s.pc + 4 else s.pc + 2 }) ∧
    (∀ t, 15 < (s.reg x).toNat →
      t = { s with fault := some ⟨.keyIndexOutOfRange, (s.reg x).toNat⟩, drawReq := false } →
      exec (.skp x) s = .next t ∧ exec (.sknp x) s = .next t) ∧
    FaultCode.keyIndexOutOfRange.number = 5

/-- R84 (a poll: the spec's own decision D22, log entry 26): if a key is held, `Fx0A` writes the least held key to `Vx`
and advances; if none is, it changes nothing, so that the next step executes it again. -/
def Obligations.WaitForKey : Prop :=
  ∀ (x : Reg) (s : State),
    (∀ k : Fin 16, s.key[k] = true → (∀ j : Fin 16, j < k → s.key[j] = false) →
      ∃ t, exec (.ldVxK x) s = .next t ∧ (t.reg x).toNat = k.val ∧ (∀ r, r ≠ x → t.reg r = s.reg r) ∧
        t = { s with v := t.v, pc := s.pc + 2 }) ∧
    ((∀ k : Fin 16, s.key[k] = false) → exec (.ldVxK x) s = .next s)

/-- R83, R85, R86: `Fx07` reads `DT` into `Vx`, `Fx15` writes `Vx` to `DT`, `Fx18` writes `Vx` to `ST`; each advances
and changes nothing else. The three roles are the spec's own decision D14 (log entry 18). -/
def Obligations.TimerAccess : Prop :=
  ∀ (x : Reg) (s : State),
    exec (.ldVxDt x) s = .next { s with v := s.v.set x s.dt, pc := s.pc + 2 } ∧
    exec (.ldDtVx x) s = .next { s with dt := s.reg x, pc := s.pc + 2 } ∧
    exec (.ldStVx x) s = .next { s with st := s.reg x, pc := s.pc + 2 }

/-- R97: a tick decrements both timers by 1, floor at 0, and changes nothing else, whatever the core is doing. -/
def Obligations.TickCountsDown : Prop :=
  ∀ s : State, ∃ t, applyEvent .tick s = .next t ∧
    t.dt.toNat = s.dt.toNat - 1 ∧ t.st.toNat = s.st.toNat - 1 ∧ t = { s with dt := t.dt, st := t.st }

/-- R98: after `Fx15` writes `N`, an `Fx07` executed after `n` further ticks reads `max(N - n, 0)` (subtraction of
natural numbers stops at 0). With the roles of the spec's own decision D14. -/
def Obligations.DelayTimerReadsElapsed : Prop :=
  ∀ (x y : Reg) (n : Nat) (s : State),
    ∃ t u w, exec (.ldDtVx x) s = .next t ∧ runEvents (List.replicate n .tick) t = .next u ∧
      exec (.ldVxDt y) u = .next w ∧ (w.reg y).toNat = (s.reg x).toNat - n

/-- 70_reset_and_hazards.md R108 (the spec's own decision D24): once the core has reached a jump to itself, every run of
steps, ticks and key writes leaves everything unchanged but the timers, the key latches and `draw_req`. -/
def Obligations.JumpToSelfIsFinished : Prop :=
  ∀ (s : State) (nnn : Addr12), s.fault = none → s.pc.toNat ≤ 0xFFE →
    decodeWord (s.wordAt s.pc.toNat) = .ok (.jp nnn) → s.pc.toNat = nnn.toNat →
    ∀ events : List Event, (∀ ev ∈ events, ev.running = true) →
      ∃ t, runEvents events s = .next t ∧
        t = { s with dt := t.dt, st := t.st, key := t.key, drawReq := t.drawReq }
end

