-- ==== Sys2Proof/Laws/Display.lean ====
section
/-! SUPPORT. What drawing does to each pixel and to the collision flag, from one bit to a whole sprite. -/

namespace Sys2Proof.Machine

/-! ### The framebuffer -/

theorem Framebuffer.pixel_toggle (fb : Framebuffer) {px py : Nat} (hx : px < 64) (hy : py < 32) (qx qy : Nat) :
    (fb.toggle px py).pixel qx qy = (fb.pixel qx qy ^^ (decide (qx = px) && decide (qy = py))) := by
  by_cases h : qy = py
  · subst h
    simp only [Framebuffer.pixel, Framebuffer.toggle, Vector.getElem?_setIfInBounds_self, hy, if_true,
      Option.getD_some, BitVec.getLsbD_xor, BitVec.getLsbD_twoPow, hx, decide_true, Bool.true_and, Bool.and_true]
    have e : (px = qx) ↔ (qx = px) := eq_comm
    simp only [e]
  · have h' : py ≠ qy := fun e => h e.symm
    simp [Framebuffer.pixel, Framebuffer.toggle, Vector.getElem?_setIfInBounds_ne h', h]

@[simp] theorem Framebuffer.pixel_blank (px py : Nat) : Framebuffer.blank.pixel px py = false := by
  by_cases h : py < 32 <;> simp [Framebuffer.pixel, Framebuffer.blank, h]

/-- Two framebuffers that agree on all 64 x 32 pixels are the same. -/
theorem Framebuffer.eq_of_pixel_eq {fb gb : Framebuffer}
    (h : ∀ px < 64, ∀ py < 32, fb.pixel px py = gb.pixel px py) : fb = gb := by
  apply Vector.ext
  intro py hy
  apply BitVec.eq_of_getLsbD_eq
  intro px hx
  simpa [Framebuffer.pixel, hy] using h px hx py hy

/-! ### One sprite bit -/

/-- Sprite bit `bit` at column `px` of row `py` toggles that pixel if it is 1 and not clipped, and no other. -/
theorem pixel_drawBit (px py : Nat) (bit : Bool) (c : Canvas) (hy : py < 32) (qx qy : Nat) :
    (drawBit px py bit c).1.pixel qx qy =
      (c.1.pixel qx qy ^^ (bit && decide (px ≤ 63) && decide (qx = px) && decide (qy = py))) := by
  unfold drawBit
  by_cases h : px ≤ 63 ∧ bit = true
  · rw [if_pos h, Framebuffer.pixel_toggle _ (by omega) hy]
    simp [h]
  · rw [if_neg h]
    have h' : (bit && decide (px ≤ 63)) = false := by
      cases bit
      · rfl
      · simpa using h
    simp [h']

/-- A collision: the bit is 1, not clipped, and the pixel was on. -/
theorem collision_drawBit (px py : Nat) (bit : Bool) (c : Canvas) :
    (drawBit px py bit c).2 = true ↔ c.2 = true ∨ (px ≤ 63 ∧ bit = true ∧ c.1.pixel px py = true) := by
  unfold drawBit
  by_cases h : px ≤ 63 ∧ bit = true
  · simp [h]
  · rw [if_neg h]
    have : ¬ (px ≤ 63 ∧ bit = true ∧ c.1.pixel px py = true) := fun e => h ⟨e.1, e.2.1⟩
    simp [this]

/-! ### One sprite row -/

/-- The first `m` columns of a sprite row. -/
def drawColumns (xPos py : Nat) (byte : Byte) (m : Nat) (c : Canvas) : Canvas :=
  (List.range m).foldl (fun c k => drawBit (xPos + k) py (byte.getLsbD (7 - k)) c) c

theorem drawRow_eq (xPos py : Nat) (byte : Byte) (c : Canvas) : drawRow xPos py byte c = drawColumns xPos py byte 8 c :=
  rfl

theorem drawColumns_succ (xPos py : Nat) (byte : Byte) (m : Nat) (c : Canvas) :
    drawColumns xPos py byte (m + 1) c =
      drawBit (xPos + m) py (byte.getLsbD (7 - m)) (drawColumns xPos py byte m c) := by
  simp [drawColumns, List.range_succ]

theorem pixel_drawColumns (xPos py : Nat) (byte : Byte) (m : Nat) (c : Canvas) (hy : py < 32) (qx qy : Nat) :
    (drawColumns xPos py byte m c).1.pixel qx qy =
      (c.1.pixel qx qy ^^ (decide (qy = py) && decide (xPos ≤ qx) && decide (qx < xPos + m) && decide (qx ≤ 63) &&
        byte.getLsbD (7 - (qx - xPos)))) := by
  induction m with
  | zero =>
    have h : (decide (xPos ≤ qx) && decide (qx < xPos + 0)) = false := by simp
    rw [Bool.and_assoc (decide (qy = py)), h]
    simp [drawColumns]
  | succ m ih =>
    rw [drawColumns_succ, pixel_drawBit _ _ _ _ hy, ih]
    by_cases h : qx = xPos + m
    · subst h
      have h1 : ¬ (xPos + m < xPos + m) := by omega
      have h2 : xPos + m < xPos + (m + 1) := by omega
      have h3 : xPos + m - xPos = m := by omega
      simp only [h1, h2, h3]
      by_cases h4 : xPos + m ≤ 63 <;> by_cases h5 : qy = py <;> simp [h4, h5]
    · have h1 : (qx < xPos + (m + 1)) ↔ (qx < xPos + m) := by omega
      simp only [h1]
      simp [h]

theorem collision_drawColumns (xPos py : Nat) (byte : Byte) (m : Nat) (c : Canvas) (hy : py < 32) :
    (drawColumns xPos py byte m c).2 = true ↔
      c.2 = true ∨ ∃ k < m, xPos + k ≤ 63 ∧ byte.getLsbD (7 - k) = true ∧ c.1.pixel (xPos + k) py = true := by
  induction m with
  | zero => simp [drawColumns]
  | succ m ih =>
    rw [drawColumns_succ, collision_drawBit, ih, pixel_drawColumns _ _ _ _ _ hy]
    have h1 : ¬ (xPos + m < xPos + m) := by omega
    simp only [h1, decide_false, Bool.and_false, Bool.false_and, Bool.xor_false]
    constructor
    · rintro ((h | ⟨k, hk, h⟩) | h)
      · exact .inl h
      · exact .inr ⟨k, by omega, h⟩
      · exact .inr ⟨m, by omega, h⟩
    · rintro (h | ⟨k, hk, h⟩)
      · exact .inl (.inl h)
      · by_cases hkm : k = m
        · subst hkm; exact .inr h
        · exact .inl (.inr ⟨k, by omega, h⟩)

/-! ### A whole sprite -/

/-- Is pixel `(qx, qy)` under a set bit of the rows `bytes` drawn with their origin at `(xPos, py)`? -/
def rowsBit (xPos py : Nat) (bytes : List Byte) (qx qy : Nat) : Bool :=
  decide (py ≤ qy) && decide (qy < py + bytes.length) && decide (xPos ≤ qx) && decide (qx < xPos + 8) &&
    decide (qx ≤ 63) && (bytes.getD (qy - py) 0).getLsbD (7 - (qx - xPos))

theorem rowsBit_cons (xPos py : Nat) (b : Byte) (rest : List Byte) (qx qy : Nat) :
    rowsBit xPos py (b :: rest) qx qy =
      ((decide (qy = py) && decide (xPos ≤ qx) && decide (qx < xPos + 8) && decide (qx ≤ 63) &&
        b.getLsbD (7 - (qx - xPos))) ^^ rowsBit xPos (py + 1) rest qx qy) := by
  unfold rowsBit
  by_cases h : qy = py
  · subst h
    have h1 : ¬ (qy + 1 ≤ qy) := by omega
    simp [h1]
  · by_cases h1 : py ≤ qy
    · have h2 : py + 1 ≤ qy := by omega
      have h3 : (qy < py + (rest.length + 1)) ↔ (qy < py + 1 + rest.length) := by omega
      have h4 : qy - py = (qy - (py + 1)) + 1 := by omega
      simp [h, h1, h2, h3, h4]
    · have h2 : ¬ (py + 1 ≤ qy) := by omega
      simp [h, h1, h2]

/-- Drawing a sprite toggles exactly the pixels under its set bits that are not clipped. -/
theorem pixel_drawRows (xPos : Nat) (bytes : List Byte) (py : Nat) (c : Canvas) (hy : py + bytes.length ≤ 32)
    (qx qy : Nat) :
    (drawRows xPos py bytes c).1.pixel qx qy = (c.1.pixel qx qy ^^ rowsBit xPos py bytes qx qy) := by
  induction bytes generalizing py c with
  | nil =>
    have : ¬ (py ≤ qy ∧ qy < py) := by omega
    by_cases h : py ≤ qy <;> by_cases h' : qy < py <;> simp_all [drawRows, rowsBit]
  | cons b rest ih =>
    simp only [List.length_cons] at hy
    rw [drawRows, ih _ _ (by omega), drawRow_eq, pixel_drawColumns _ _ _ _ _ (by omega), rowsBit_cons, Bool.xor_assoc]

/-- Drawing a sprite collides exactly where a set bit that is not clipped lies over a pixel that was on. -/
theorem collision_drawRows (xPos : Nat) (bytes : List Byte) (py : Nat) (c : Canvas) (hy : py + bytes.length ≤ 32) :
    (drawRows xPos py bytes c).2 = true ↔
      c.2 = true ∨ ∃ qx qy, rowsBit xPos py bytes qx qy = true ∧ c.1.pixel qx qy = true := by
  induction bytes generalizing py c with
  | nil =>
    simp only [drawRows]
    constructor
    · exact .inl
    · rintro (h | ⟨qx, qy, h, -⟩)
      · exact h
      · simp [rowsBit] at h
  | cons b rest ih =>
    simp only [List.length_cons] at hy
    rw [drawRows, ih _ _ (by omega), drawRow_eq, collision_drawColumns _ _ _ _ _ (by omega), or_assoc]
    refine or_congr Iff.rfl ?_
    constructor
    · rintro (⟨k, hk, hx, hb, hp⟩ | ⟨qx, qy, hr, hp⟩)
      · refine ⟨xPos + k, py, ?_, hp⟩
        simp [rowsBit, hk, hx, hb]
      · have hq : py + 1 ≤ qy := by simp [rowsBit] at hr; omega
        have hne : qy ≠ py := by omega
        rw [pixel_drawColumns _ _ _ _ _ (by omega)] at hp
        refine ⟨qx, qy, ?_, by simpa [hne] using hp⟩
        simp [rowsBit_cons, hne, hr]
    · rintro ⟨qx, qy, hr, hp⟩
      rw [rowsBit_cons] at hr
      by_cases hq : qy = py
      · subst hq
        have hz : rowsBit xPos (qy + 1) rest qx qy = false := by simp [rowsBit]
        simp only [hz, Bool.xor_false, Bool.and_eq_true, decide_eq_true_eq] at hr
        obtain ⟨⟨⟨⟨-, h1⟩, h2⟩, h3⟩, h4⟩ := hr
        refine .inl ⟨qx - xPos, by omega, by omega, h4, ?_⟩
        rwa [show xPos + (qx - xPos) = qx by omega]
      · refine .inr ⟨qx, qy, by simpa [hq] using hr, ?_⟩
        rw [pixel_drawColumns _ _ _ _ _ (by omega)]
        simpa [hq] using hp

end Sys2Proof.Machine
end

