-- ==== Sys2Proof/Laws/Encoding.lean ====
section
/-! SUPPORT. The fields of an encoded word, and a word from its fields. -/

namespace Sys2Proof

@[simp] theorem toFin_regBits (r : Reg) : (regBits r).toFin = r := rfl

@[simp] theorem regBits_fieldX (w : Word) : regBits (fieldX w) = w.extractLsb' 8 4 := rfl

@[simp] theorem regBits_fieldY (w : Word) : regBits (fieldY w) = w.extractLsb' 4 4 := rfl

/-- The part of a concatenation that lies above its low `b` bits. -/
theorem extract_append_high {a b : Nat} (p : BitVec a) (q : BitVec b) (k n : Nat) :
    (p ++ q).extractLsb' (b + k) n = p.extractLsb' k n := by
  ext i hi
  simp only [BitVec.getElem_extractLsb', BitVec.getLsbD_append]
  have h : ¬ (b + k + i < b) := by omega
  have e : b + k + i - b = k + i := by omega
  simp only [h, e, if_false]

/-- The part of a concatenation that lies within its low `b` bits. -/
theorem extract_append_low {a b : Nat} (p : BitVec a) (q : BitVec b) (k n : Nat) (h : k + n ≤ b) :
    (p ++ q).extractLsb' k n = q.extractLsb' k n := by
  ext i hi
  simp only [BitVec.getElem_extractLsb', BitVec.getLsbD_append]
  have h : k + i < b := by omega
  simp [h]

theorem extract_all {a : Nat} (p : BitVec a) : p.extractLsb' 0 a = p := by
  ext i hi; simp

/-! ### Format `A` -/

theorem fieldF_encodeA (f : Nibble) (nnn : Addr12) : fieldF (encodeA f nnn) = f :=
  (extract_append_high f nnn 0 4).trans (extract_all f)

theorem fieldNNN_encodeA (f : Nibble) (nnn : Addr12) : fieldNNN (encodeA f nnn) = nnn :=
  (extract_append_low f nnn 0 12 (by omega)).trans (extract_all nnn)

/-! ### Format `XI` -/

theorem fieldF_encodeXI (f : Nibble) (x : Reg) (nn : Byte) : fieldF (encodeXI f x nn) = f :=
  (extract_append_high f (regBits x ++ nn) 0 4).trans (extract_all f)

theorem fieldX_encodeXI (f : Nibble) (x : Reg) (nn : Byte) : fieldX (encodeXI f x nn) = x := by
  have h : (encodeXI f x nn).extractLsb' 8 4 = regBits x :=
    (extract_append_low f (regBits x ++ nn) 8 4 (by omega)).trans
      ((extract_append_high (regBits x) nn 0 4).trans (extract_all _))
  simp only [fieldX, h, toFin_regBits]

theorem fieldNN_encodeXI (f : Nibble) (x : Reg) (nn : Byte) : fieldNN (encodeXI f x nn) = nn :=
  (extract_append_low f (regBits x ++ nn) 0 8 (by omega)).trans
    ((extract_append_low (regBits x) nn 0 8 (by omega)).trans (extract_all nn))

/-! ### Formats `XY` and `XYN` -/

theorem fieldF_encodeXYN (f : Nibble) (x y : Reg) (n : Nibble) : fieldF (encodeXYN f x y n) = f :=
  (extract_append_high f (regBits x ++ (regBits y ++ n)) 0 4).trans (extract_all f)

theorem fieldX_encodeXYN (f : Nibble) (x y : Reg) (n : Nibble) : fieldX (encodeXYN f x y n) = x := by
  have h : (encodeXYN f x y n).extractLsb' 8 4 = regBits x :=
    (extract_append_low f (regBits x ++ (regBits y ++ n)) 8 4 (by omega)).trans
      ((extract_append_high (regBits x) (regBits y ++ n) 0 4).trans (extract_all _))
  simp only [fieldX, h, toFin_regBits]

theorem fieldY_encodeXYN (f : Nibble) (x y : Reg) (n : Nibble) : fieldY (encodeXYN f x y n) = y := by
  have h : (encodeXYN f x y n).extractLsb' 4 4 = regBits y :=
    (extract_append_low f (regBits x ++ (regBits y ++ n)) 4 4 (by omega)).trans
      ((extract_append_low (regBits x) (regBits y ++ n) 4 4 (by omega)).trans
        ((extract_append_high (regBits y) n 0 4).trans (extract_all _)))
  simp only [fieldY, h, toFin_regBits]

theorem fieldN_encodeXYN (f : Nibble) (x y : Reg) (n : Nibble) : fieldN (encodeXYN f x y n) = n :=
  (extract_append_low f (regBits x ++ (regBits y ++ n)) 0 4 (by omega)).trans
    ((extract_append_low (regBits x) (regBits y ++ n) 0 4 (by omega)).trans
      ((extract_append_low (regBits y) n 0 4 (by omega)).trans (extract_all n)))

/-! ### A word from its fields, and from its bytes -/

/-- A field cut in two. -/
theorem extract_split {c : Nat} (w : BitVec c) (lo a b : Nat) :
    w.extractLsb' (lo + b) a ++ w.extractLsb' lo b = w.extractLsb' lo (a + b) := by
  ext i hi
  simp only [BitVec.getElem_append, BitVec.getElem_extractLsb']
  split
  · rfl
  · next h =>
    have e : lo + b + (i - b) = lo + i := by omega
    simp only [e]

theorem encodeA_fields (w : Word) : encodeA (fieldF w) (fieldNNN w) = w :=
  (extract_split w 0 4 12).trans (extract_all w)

theorem fieldNNN_eq_x_nn (w : Word) : w.extractLsb' 8 4 ++ fieldNN w = fieldNNN w := extract_split w 0 4 8

theorem fieldNN_eq_y_n (w : Word) : w.extractLsb' 4 4 ++ fieldN w = fieldNN w := extract_split w 0 4 4

theorem encodeXI_fields (w : Word) : encodeXI (fieldF w) (fieldX w) (fieldNN w) = w := by
  rw [encodeXI, regBits_fieldX, fieldNNN_eq_x_nn]
  exact encodeA_fields w

theorem encodeXYN_fields (w : Word) : encodeXYN (fieldF w) (fieldX w) (fieldY w) (fieldN w) = w := by
  rw [encodeXYN, regBits_fieldY, fieldNN_eq_y_n]
  exact encodeXI_fields w

/-- The bytes of a word, read back big-endian, are the word. -/
theorem wordOfBytes_bytes (w : Word) : wordOfBytes (highByte w) (lowByte w) = w :=
  (extract_split w 0 8 8).trans (extract_all w)

theorem highByte_wordOfBytes (hi lo : Byte) : highByte (wordOfBytes hi lo) = hi :=
  (extract_append_high hi lo 0 8).trans (extract_all hi)

theorem lowByte_wordOfBytes (hi lo : Byte) : lowByte (wordOfBytes hi lo) = lo :=
  (extract_append_low hi lo 0 8 (by omega)).trans (extract_all lo)

/-- Decoding the two bytes of a word is decoding the word. -/
theorem decode_wordBytes (w : Word) (rest : List Byte) :
    decode (wordBytes w ++ rest) =
      match decodeWord w with
      | .ok i => .ok (i, rest)
      | .error e => .error e := by
  show (match decodeWord (wordOfBytes (highByte w) (lowByte w)) with
    | .ok i => Except.ok (i, rest)
    | .error e => .error e) = _
  rw [wordOfBytes_bytes]

end Sys2Proof
end

