-- ==== Sys2Proof/Laws/State.lean ====
section
/-! SUPPORT. One lemma per field and per update of the state, so that no proof unfolds a record update. -/

namespace Sys2Proof.Machine

variable (s : State)

@[simp] theorem State.v_setReg (r : Reg) (b : Byte) : (s.setReg r b).v = s.v.set r b := rfl
@[simp] theorem State.i_setReg (r : Reg) (b : Byte) : (s.setReg r b).i = s.i := rfl
@[simp] theorem State.pc_setReg (r : Reg) (b : Byte) : (s.setReg r b).pc = s.pc := rfl
@[simp] theorem State.sp_setReg (r : Reg) (b : Byte) : (s.setReg r b).sp = s.sp := rfl
@[simp] theorem State.stack_setReg (r : Reg) (b : Byte) : (s.setReg r b).stack = s.stack := rfl
@[simp] theorem State.dt_setReg (r : Reg) (b : Byte) : (s.setReg r b).dt = s.dt := rfl
@[simp] theorem State.st_setReg (r : Reg) (b : Byte) : (s.setReg r b).st = s.st := rfl
@[simp] theorem State.mem_setReg (r : Reg) (b : Byte) : (s.setReg r b).mem = s.mem := rfl
@[simp] theorem State.key_setReg (r : Reg) (b : Byte) : (s.setReg r b).key = s.key := rfl
@[simp] theorem State.fb_setReg (r : Reg) (b : Byte) : (s.setReg r b).fb = s.fb := rfl
@[simp] theorem State.drawReq_setReg (r : Reg) (b : Byte) : (s.setReg r b).drawReq = s.drawReq := rfl
@[simp] theorem State.fault_setReg (r : Reg) (b : Byte) : (s.setReg r b).fault = s.fault := rfl
@[simp] theorem State.draws_setReg (r : Reg) (b : Byte) : (s.setReg r b).draws = s.draws := rfl

@[simp] theorem State.v_loadRegs (bs : List Byte) : (s.loadRegs bs).v = fillRegs s.v 0 bs := rfl
@[simp] theorem State.i_loadRegs (bs : List Byte) : (s.loadRegs bs).i = s.i := rfl
@[simp] theorem State.pc_loadRegs (bs : List Byte) : (s.loadRegs bs).pc = s.pc := rfl
@[simp] theorem State.sp_loadRegs (bs : List Byte) : (s.loadRegs bs).sp = s.sp := rfl
@[simp] theorem State.stack_loadRegs (bs : List Byte) : (s.loadRegs bs).stack = s.stack := rfl
@[simp] theorem State.dt_loadRegs (bs : List Byte) : (s.loadRegs bs).dt = s.dt := rfl
@[simp] theorem State.st_loadRegs (bs : List Byte) : (s.loadRegs bs).st = s.st := rfl
@[simp] theorem State.mem_loadRegs (bs : List Byte) : (s.loadRegs bs).mem = s.mem := rfl
@[simp] theorem State.key_loadRegs (bs : List Byte) : (s.loadRegs bs).key = s.key := rfl
@[simp] theorem State.fb_loadRegs (bs : List Byte) : (s.loadRegs bs).fb = s.fb := rfl
@[simp] theorem State.drawReq_loadRegs (bs : List Byte) : (s.loadRegs bs).drawReq = s.drawReq := rfl
@[simp] theorem State.fault_loadRegs (bs : List Byte) : (s.loadRegs bs).fault = s.fault := rfl
@[simp] theorem State.draws_loadRegs (bs : List Byte) : (s.loadRegs bs).draws = s.draws := rfl

@[simp] theorem State.v_setI (w : Word) : (s.setI w).v = s.v := rfl
@[simp] theorem State.i_setI (w : Word) : (s.setI w).i = w := rfl
@[simp] theorem State.pc_setI (w : Word) : (s.setI w).pc = s.pc := rfl
@[simp] theorem State.sp_setI (w : Word) : (s.setI w).sp = s.sp := rfl
@[simp] theorem State.stack_setI (w : Word) : (s.setI w).stack = s.stack := rfl
@[simp] theorem State.dt_setI (w : Word) : (s.setI w).dt = s.dt := rfl
@[simp] theorem State.st_setI (w : Word) : (s.setI w).st = s.st := rfl
@[simp] theorem State.mem_setI (w : Word) : (s.setI w).mem = s.mem := rfl
@[simp] theorem State.key_setI (w : Word) : (s.setI w).key = s.key := rfl
@[simp] theorem State.fb_setI (w : Word) : (s.setI w).fb = s.fb := rfl
@[simp] theorem State.drawReq_setI (w : Word) : (s.setI w).drawReq = s.drawReq := rfl
@[simp] theorem State.fault_setI (w : Word) : (s.setI w).fault = s.fault := rfl
@[simp] theorem State.draws_setI (w : Word) : (s.setI w).draws = s.draws := rfl

@[simp] theorem State.v_setPc (w : Word) : (s.setPc w).v = s.v := rfl
@[simp] theorem State.i_setPc (w : Word) : (s.setPc w).i = s.i := rfl
@[simp] theorem State.pc_setPc (w : Word) : (s.setPc w).pc = w := rfl
@[simp] theorem State.sp_setPc (w : Word) : (s.setPc w).sp = s.sp := rfl
@[simp] theorem State.stack_setPc (w : Word) : (s.setPc w).stack = s.stack := rfl
@[simp] theorem State.dt_setPc (w : Word) : (s.setPc w).dt = s.dt := rfl
@[simp] theorem State.st_setPc (w : Word) : (s.setPc w).st = s.st := rfl
@[simp] theorem State.mem_setPc (w : Word) : (s.setPc w).mem = s.mem := rfl
@[simp] theorem State.key_setPc (w : Word) : (s.setPc w).key = s.key := rfl
@[simp] theorem State.fb_setPc (w : Word) : (s.setPc w).fb = s.fb := rfl
@[simp] theorem State.drawReq_setPc (w : Word) : (s.setPc w).drawReq = s.drawReq := rfl
@[simp] theorem State.fault_setPc (w : Word) : (s.setPc w).fault = s.fault := rfl
@[simp] theorem State.draws_setPc (w : Word) : (s.setPc w).draws = s.draws := rfl

@[simp] theorem State.v_setDT (b : Byte) : (s.setDT b).v = s.v := rfl
@[simp] theorem State.i_setDT (b : Byte) : (s.setDT b).i = s.i := rfl
@[simp] theorem State.pc_setDT (b : Byte) : (s.setDT b).pc = s.pc := rfl
@[simp] theorem State.sp_setDT (b : Byte) : (s.setDT b).sp = s.sp := rfl
@[simp] theorem State.stack_setDT (b : Byte) : (s.setDT b).stack = s.stack := rfl
@[simp] theorem State.dt_setDT (b : Byte) : (s.setDT b).dt = b := rfl
@[simp] theorem State.st_setDT (b : Byte) : (s.setDT b).st = s.st := rfl
@[simp] theorem State.mem_setDT (b : Byte) : (s.setDT b).mem = s.mem := rfl
@[simp] theorem State.key_setDT (b : Byte) : (s.setDT b).key = s.key := rfl
@[simp] theorem State.fb_setDT (b : Byte) : (s.setDT b).fb = s.fb := rfl
@[simp] theorem State.drawReq_setDT (b : Byte) : (s.setDT b).drawReq = s.drawReq := rfl
@[simp] theorem State.fault_setDT (b : Byte) : (s.setDT b).fault = s.fault := rfl
@[simp] theorem State.draws_setDT (b : Byte) : (s.setDT b).draws = s.draws := rfl

@[simp] theorem State.v_setST (b : Byte) : (s.setST b).v = s.v := rfl
@[simp] theorem State.i_setST (b : Byte) : (s.setST b).i = s.i := rfl
@[simp] theorem State.pc_setST (b : Byte) : (s.setST b).pc = s.pc := rfl
@[simp] theorem State.sp_setST (b : Byte) : (s.setST b).sp = s.sp := rfl
@[simp] theorem State.stack_setST (b : Byte) : (s.setST b).stack = s.stack := rfl
@[simp] theorem State.dt_setST (b : Byte) : (s.setST b).dt = s.dt := rfl
@[simp] theorem State.st_setST (b : Byte) : (s.setST b).st = b := rfl
@[simp] theorem State.mem_setST (b : Byte) : (s.setST b).mem = s.mem := rfl
@[simp] theorem State.key_setST (b : Byte) : (s.setST b).key = s.key := rfl
@[simp] theorem State.fb_setST (b : Byte) : (s.setST b).fb = s.fb := rfl
@[simp] theorem State.drawReq_setST (b : Byte) : (s.setST b).drawReq = s.drawReq := rfl
@[simp] theorem State.fault_setST (b : Byte) : (s.setST b).fault = s.fault := rfl
@[simp] theorem State.draws_setST (b : Byte) : (s.setST b).draws = s.draws := rfl

@[simp] theorem State.v_setMem (m : Memory) : (s.setMem m).v = s.v := rfl
@[simp] theorem State.i_setMem (m : Memory) : (s.setMem m).i = s.i := rfl
@[simp] theorem State.pc_setMem (m : Memory) : (s.setMem m).pc = s.pc := rfl
@[simp] theorem State.sp_setMem (m : Memory) : (s.setMem m).sp = s.sp := rfl
@[simp] theorem State.stack_setMem (m : Memory) : (s.setMem m).stack = s.stack := rfl
@[simp] theorem State.dt_setMem (m : Memory) : (s.setMem m).dt = s.dt := rfl
@[simp] theorem State.st_setMem (m : Memory) : (s.setMem m).st = s.st := rfl
@[simp] theorem State.mem_setMem (m : Memory) : (s.setMem m).mem = m := rfl
@[simp] theorem State.key_setMem (m : Memory) : (s.setMem m).key = s.key := rfl
@[simp] theorem State.fb_setMem (m : Memory) : (s.setMem m).fb = s.fb := rfl
@[simp] theorem State.drawReq_setMem (m : Memory) : (s.setMem m).drawReq = s.drawReq := rfl
@[simp] theorem State.fault_setMem (m : Memory) : (s.setMem m).fault = s.fault := rfl
@[simp] theorem State.draws_setMem (m : Memory) : (s.setMem m).draws = s.draws := rfl

@[simp] theorem State.v_setKeys (k : Vector Bool 16) : (s.setKeys k).v = s.v := rfl
@[simp] theorem State.i_setKeys (k : Vector Bool 16) : (s.setKeys k).i = s.i := rfl
@[simp] theorem State.pc_setKeys (k : Vector Bool 16) : (s.setKeys k).pc = s.pc := rfl
@[simp] theorem State.sp_setKeys (k : Vector Bool 16) : (s.setKeys k).sp = s.sp := rfl
@[simp] theorem State.stack_setKeys (k : Vector Bool 16) : (s.setKeys k).stack = s.stack := rfl
@[simp] theorem State.dt_setKeys (k : Vector Bool 16) : (s.setKeys k).dt = s.dt := rfl
@[simp] theorem State.st_setKeys (k : Vector Bool 16) : (s.setKeys k).st = s.st := rfl
@[simp] theorem State.mem_setKeys (k : Vector Bool 16) : (s.setKeys k).mem = s.mem := rfl
@[simp] theorem State.key_setKeys (k : Vector Bool 16) : (s.setKeys k).key = k := rfl
@[simp] theorem State.fb_setKeys (k : Vector Bool 16) : (s.setKeys k).fb = s.fb := rfl
@[simp] theorem State.drawReq_setKeys (k : Vector Bool 16) : (s.setKeys k).drawReq = s.drawReq := rfl
@[simp] theorem State.fault_setKeys (k : Vector Bool 16) : (s.setKeys k).fault = s.fault := rfl
@[simp] theorem State.draws_setKeys (k : Vector Bool 16) : (s.setKeys k).draws = s.draws := rfl

@[simp] theorem State.v_setFb (f : Framebuffer) : (s.setFb f).v = s.v := rfl
@[simp] theorem State.i_setFb (f : Framebuffer) : (s.setFb f).i = s.i := rfl
@[simp] theorem State.pc_setFb (f : Framebuffer) : (s.setFb f).pc = s.pc := rfl
@[simp] theorem State.sp_setFb (f : Framebuffer) : (s.setFb f).sp = s.sp := rfl
@[simp] theorem State.stack_setFb (f : Framebuffer) : (s.setFb f).stack = s.stack := rfl
@[simp] theorem State.dt_setFb (f : Framebuffer) : (s.setFb f).dt = s.dt := rfl
@[simp] theorem State.st_setFb (f : Framebuffer) : (s.setFb f).st = s.st := rfl
@[simp] theorem State.mem_setFb (f : Framebuffer) : (s.setFb f).mem = s.mem := rfl
@[simp] theorem State.key_setFb (f : Framebuffer) : (s.setFb f).key = s.key := rfl
@[simp] theorem State.fb_setFb (f : Framebuffer) : (s.setFb f).fb = f := rfl
@[simp] theorem State.drawReq_setFb (f : Framebuffer) : (s.setFb f).drawReq = s.drawReq := rfl
@[simp] theorem State.fault_setFb (f : Framebuffer) : (s.setFb f).fault = s.fault := rfl
@[simp] theorem State.draws_setFb (f : Framebuffer) : (s.setFb f).draws = s.draws := rfl

@[simp] theorem State.v_setDrawReq (b : Bool) : (s.setDrawReq b).v = s.v := rfl
@[simp] theorem State.i_setDrawReq (b : Bool) : (s.setDrawReq b).i = s.i := rfl
@[simp] theorem State.pc_setDrawReq (b : Bool) : (s.setDrawReq b).pc = s.pc := rfl
@[simp] theorem State.sp_setDrawReq (b : Bool) : (s.setDrawReq b).sp = s.sp := rfl
@[simp] theorem State.stack_setDrawReq (b : Bool) : (s.setDrawReq b).stack = s.stack := rfl
@[simp] theorem State.dt_setDrawReq (b : Bool) : (s.setDrawReq b).dt = s.dt := rfl
@[simp] theorem State.st_setDrawReq (b : Bool) : (s.setDrawReq b).st = s.st := rfl
@[simp] theorem State.mem_setDrawReq (b : Bool) : (s.setDrawReq b).mem = s.mem := rfl
@[simp] theorem State.key_setDrawReq (b : Bool) : (s.setDrawReq b).key = s.key := rfl
@[simp] theorem State.fb_setDrawReq (b : Bool) : (s.setDrawReq b).fb = s.fb := rfl
@[simp] theorem State.drawReq_setDrawReq (b : Bool) : (s.setDrawReq b).drawReq = b := rfl
@[simp] theorem State.fault_setDrawReq (b : Bool) : (s.setDrawReq b).fault = s.fault := rfl
@[simp] theorem State.draws_setDrawReq (b : Bool) : (s.setDrawReq b).draws = s.draws := rfl

@[simp] theorem State.v_countDraw : (s.countDraw).v = s.v := rfl
@[simp] theorem State.i_countDraw : (s.countDraw).i = s.i := rfl
@[simp] theorem State.pc_countDraw : (s.countDraw).pc = s.pc := rfl
@[simp] theorem State.sp_countDraw : (s.countDraw).sp = s.sp := rfl
@[simp] theorem State.stack_countDraw : (s.countDraw).stack = s.stack := rfl
@[simp] theorem State.dt_countDraw : (s.countDraw).dt = s.dt := rfl
@[simp] theorem State.st_countDraw : (s.countDraw).st = s.st := rfl
@[simp] theorem State.mem_countDraw : (s.countDraw).mem = s.mem := rfl
@[simp] theorem State.key_countDraw : (s.countDraw).key = s.key := rfl
@[simp] theorem State.fb_countDraw : (s.countDraw).fb = s.fb := rfl
@[simp] theorem State.drawReq_countDraw : (s.countDraw).drawReq = s.drawReq := rfl
@[simp] theorem State.fault_countDraw : (s.countDraw).fault = s.fault := rfl
@[simp] theorem State.draws_countDraw : (s.countDraw).draws = s.draws + 1 := rfl

@[simp] theorem State.v_push (w : Word) : (s.push w).v = s.v := rfl
@[simp] theorem State.i_push (w : Word) : (s.push w).i = s.i := rfl
@[simp] theorem State.pc_push (w : Word) : (s.push w).pc = s.pc := rfl
@[simp] theorem State.sp_push (w : Word) : (s.push w).sp = s.sp + 1 := rfl
@[simp] theorem State.stack_push (w : Word) : (s.push w).stack = s.stack.setIfInBounds (s.sp.toNat + 1) w := rfl
@[simp] theorem State.dt_push (w : Word) : (s.push w).dt = s.dt := rfl
@[simp] theorem State.st_push (w : Word) : (s.push w).st = s.st := rfl
@[simp] theorem State.mem_push (w : Word) : (s.push w).mem = s.mem := rfl
@[simp] theorem State.key_push (w : Word) : (s.push w).key = s.key := rfl
@[simp] theorem State.fb_push (w : Word) : (s.push w).fb = s.fb := rfl
@[simp] theorem State.drawReq_push (w : Word) : (s.push w).drawReq = s.drawReq := rfl
@[simp] theorem State.fault_push (w : Word) : (s.push w).fault = s.fault := rfl
@[simp] theorem State.draws_push (w : Word) : (s.push w).draws = s.draws := rfl

@[simp] theorem State.v_pop : (s.pop).v = s.v := rfl
@[simp] theorem State.i_pop : (s.pop).i = s.i := rfl
@[simp] theorem State.pc_pop : (s.pop).pc = s.pc := rfl
@[simp] theorem State.sp_pop : (s.pop).sp = s.sp - 1 := rfl
@[simp] theorem State.stack_pop : (s.pop).stack = s.stack := rfl
@[simp] theorem State.dt_pop : (s.pop).dt = s.dt := rfl
@[simp] theorem State.st_pop : (s.pop).st = s.st := rfl
@[simp] theorem State.mem_pop : (s.pop).mem = s.mem := rfl
@[simp] theorem State.key_pop : (s.pop).key = s.key := rfl
@[simp] theorem State.fb_pop : (s.pop).fb = s.fb := rfl
@[simp] theorem State.drawReq_pop : (s.pop).drawReq = s.drawReq := rfl
@[simp] theorem State.fault_pop : (s.pop).fault = s.fault := rfl
@[simp] theorem State.draws_pop : (s.pop).draws = s.draws := rfl

@[simp] theorem State.v_advance : (s.advance).v = s.v := rfl
@[simp] theorem State.i_advance : (s.advance).i = s.i := rfl
@[simp] theorem State.pc_advance : (s.advance).pc = s.pc + 2 := rfl
@[simp] theorem State.sp_advance : (s.advance).sp = s.sp := rfl
@[simp] theorem State.stack_advance : (s.advance).stack = s.stack := rfl
@[simp] theorem State.dt_advance : (s.advance).dt = s.dt := rfl
@[simp] theorem State.st_advance : (s.advance).st = s.st := rfl
@[simp] theorem State.mem_advance : (s.advance).mem = s.mem := rfl
@[simp] theorem State.key_advance : (s.advance).key = s.key := rfl
@[simp] theorem State.fb_advance : (s.advance).fb = s.fb := rfl
@[simp] theorem State.drawReq_advance : (s.advance).drawReq = s.drawReq := rfl
@[simp] theorem State.fault_advance : (s.advance).fault = s.fault := rfl
@[simp] theorem State.draws_advance : (s.advance).draws = s.draws := rfl

@[simp] theorem State.v_skipIf (c : Bool) : (s.skipIf c).v = s.v := rfl
@[simp] theorem State.i_skipIf (c : Bool) : (s.skipIf c).i = s.i := rfl
@[simp] theorem State.pc_skipIf (c : Bool) : (s.skipIf c).pc = if c then s.pc + 4 else s.pc + 2 := rfl
@[simp] theorem State.sp_skipIf (c : Bool) : (s.skipIf c).sp = s.sp := rfl
@[simp] theorem State.stack_skipIf (c : Bool) : (s.skipIf c).stack = s.stack := rfl
@[simp] theorem State.dt_skipIf (c : Bool) : (s.skipIf c).dt = s.dt := rfl
@[simp] theorem State.st_skipIf (c : Bool) : (s.skipIf c).st = s.st := rfl
@[simp] theorem State.mem_skipIf (c : Bool) : (s.skipIf c).mem = s.mem := rfl
@[simp] theorem State.key_skipIf (c : Bool) : (s.skipIf c).key = s.key := rfl
@[simp] theorem State.fb_skipIf (c : Bool) : (s.skipIf c).fb = s.fb := rfl
@[simp] theorem State.drawReq_skipIf (c : Bool) : (s.skipIf c).drawReq = s.drawReq := rfl
@[simp] theorem State.fault_skipIf (c : Bool) : (s.skipIf c).fault = s.fault := rfl
@[simp] theorem State.draws_skipIf (c : Bool) : (s.skipIf c).draws = s.draws := rfl

end Sys2Proof.Machine
end

