-- ==== Sys2Proof/Laws/Memory.lean ====
section
/-! SUPPORT. Memory: a read after a write, the canonical form, blocks of bytes, and the range check. -/

namespace Sys2Proof.Machine

/-! ### One byte -/

theorem Memory.listed_insert (m : Memory) (a : Nat) (b : Byte) (c : Nat) :
    (m.insert a b).listed c = if c = a then some b else m.listed c := by
  induction m with
  | nil => simp [Memory.insert, Memory.listed, eq_comm]
  | cons d rest ih =>
    simp only [Memory.insert]
    split
    · simp [Memory.listed, eq_comm]
    · split
      · next h => by_cases hc : c = a <;> simp_all [Memory.listed, eq_comm]
      · next h =>
        simp only [Memory.listed, ih]
        by_cases hd : d.1 = c
        · have : c ≠ a := fun e => h (hd.trans e)
          simp [hd, this]
        · simp [hd]

theorem Memory.listed_erase (m : Memory) (a c : Nat) :
    (m.erase a).listed c = if c = a then none else m.listed c := by
  induction m with
  | nil => simp [Memory.erase, Memory.listed]
  | cons d rest ih =>
    simp only [Memory.erase] at ih ⊢
    by_cases hd : d.1 = a
    · rw [List.filter_cons_of_neg (by simp [hd]), ih]
      by_cases hc : c = a
      · simp [hc]
      · have : d.1 ≠ c := fun e => hc (e.symm.trans hd)
        simp [hc, Memory.listed, this]
    · rw [List.filter_cons_of_pos (by simp [hd])]
      simp only [Memory.listed, ih]
      by_cases hc : d.1 = c
      · have : c ≠ a := fun e => hd (hc.trans e)
        simp [hc, this]
      · simp [hc]

/-- A read after a write: the written value at the written address, the old contents at every other. -/
theorem Memory.read_write (m : Memory) (a : Nat) (b : Byte) (c : Nat) :
    (m.write a b).read c = if c = a then b else m.read c := by
  unfold Memory.write Memory.read
  split
  · next h =>
    rw [Memory.listed_erase]
    by_cases hc : c = a <;> simp [hc, h]
  · rw [Memory.listed_insert]
    by_cases hc : c = a <;> simp [hc]

@[simp] theorem Memory.read_write_self (m : Memory) (a : Nat) (b : Byte) : (m.write a b).read a = b := by
  simp [Memory.read_write]

theorem Memory.read_write_other (m : Memory) {a c : Nat} (b : Byte) (h : c ≠ a) :
    (m.write a b).read c = m.read c := by
  simp [Memory.read_write, h]

@[simp] theorem Memory.read_nil (a : Nat) : Memory.read [] a = Memory.unlisted a := rfl

/-! ### The canonical form -/

theorem Memory.wf_nil : Memory.wf [] := by simp [Memory.wf]

theorem Memory.erase_wf {m : Memory} (h : m.wf) (a : Nat) : (m.erase a).wf :=
  ⟨h.1.filter _, fun c hc => h.2 c (List.mem_filter.mp hc).1⟩

theorem Memory.mem_insert {m : Memory} {a : Nat} {b : Byte} {c : Host.Cell} (h : c ∈ m.insert a b) :
    c = (a, b) ∨ c ∈ m := by
  induction m with
  | nil => simpa [Memory.insert] using h
  | cons d rest ih =>
    simp only [Memory.insert] at h
    split at h
    · simpa using h
    · split at h
      · rcases List.mem_cons.mp h with h | h
        · exact .inl h
        · exact .inr (List.mem_cons_of_mem _ h)
      · rcases List.mem_cons.mp h with h | h
        · exact .inr (h ▸ List.mem_cons_self)
        · exact (ih h).imp id (List.mem_cons_of_mem _)

theorem Memory.insert_rising {m : Memory} (h : m.Pairwise (fun c d => c.1 < d.1)) (a : Nat) (b : Byte) :
    (m.insert a b).Pairwise (fun c d => c.1 < d.1) := by
  induction m with
  | nil => simp [Memory.insert]
  | cons d rest ih =>
    rw [List.pairwise_cons] at h
    simp only [Memory.insert]
    split
    · next hlt =>
      refine List.pairwise_cons.mpr ⟨fun c hc => ?_, List.pairwise_cons.mpr h⟩
      rcases List.mem_cons.mp hc with rfl | hc
      · exact hlt
      · exact hlt.trans (h.1 c hc)
    · split
      · next heq => exact List.pairwise_cons.mpr ⟨fun c hc => heq ▸ h.1 c hc, h.2⟩
      · refine List.pairwise_cons.mpr ⟨fun c hc => ?_, ih h.2⟩
        rcases Memory.mem_insert hc with rfl | hc
        · simp only; omega
        · exact h.1 c hc

theorem Memory.insert_wf {m : Memory} (h : m.wf) {a : Nat} {b : Byte} (ha : a < Config.memSize)
    (hb : b ≠ Memory.unlisted a) : (m.insert a b).wf := by
  refine ⟨Memory.insert_rising h.1 a b, fun c hc => ?_⟩
  rcases Memory.mem_insert hc with rfl | hc
  · exact ⟨ha, hb⟩
  · exact h.2 c hc

/-- A write inside the address space keeps the canonical form. -/
theorem Memory.write_wf {m : Memory} (h : m.wf) {a : Nat} (b : Byte) (ha : a < Config.memSize) : (m.write a b).wf := by
  unfold Memory.write
  split
  · exact Memory.erase_wf h a
  · next hb => exact Memory.insert_wf h ha hb

theorem Memory.listed_of_mem {m : Memory} (h : m.Pairwise (fun c d => c.1 < d.1)) {c : Host.Cell} (hc : c ∈ m) :
    m.listed c.1 = some c.2 := by
  induction m with
  | nil => simp at hc
  | cons d rest ih =>
    rw [List.pairwise_cons] at h
    rcases List.mem_cons.mp hc with rfl | hc
    · simp [Memory.listed]
    · have := h.1 c hc
      have hne : d.1 ≠ c.1 := by omega
      simp [Memory.listed, hne, ih h.2 hc]

theorem Memory.mem_of_listed {m : Memory} {a : Nat} {b : Byte} (h : m.listed a = some b) : (a, b) ∈ m := by
  induction m with
  | nil => simp [Memory.listed] at h
  | cons d rest ih =>
    simp only [Memory.listed] at h
    split at h
    · next hd => simp only [Option.some.injEq] at h; subst hd h; exact List.mem_cons_self
    · exact List.mem_cons_of_mem _ (ih h)

theorem Memory.mem_iff_read {m : Memory} (h : m.wf) (c : Host.Cell) :
    c ∈ m ↔ m.read c.1 = c.2 ∧ c.2 ≠ Memory.unlisted c.1 := by
  constructor
  · intro hc
    exact ⟨by simp [Memory.read, Memory.listed_of_mem h.1 hc], (h.2 c hc).2⟩
  · rintro ⟨hr, hn⟩
    cases hl : m.listed c.1 with
    | none => simp [Memory.read, hl] at hr; exact absurd hr.symm hn
    | some b =>
      have : b = c.2 := by simpa [Memory.read, hl] using hr
      subst this
      exact Memory.mem_of_listed hl

/-- Equal memories are equal data: two canonical lists that read the same at every address are one list. -/
theorem Memory.eq_of_read_eq {m m' : Memory} (h : m.wf) (h' : m'.wf) (hr : ∀ a, m.read a = m'.read a) : m = m' := by
  have hmem : ∀ c, c ∈ m ↔ c ∈ m' := fun c => by rw [Memory.mem_iff_read h, Memory.mem_iff_read h', hr]
  have hs {l : Memory} (hl : l.Pairwise (fun c d => c.1 < d.1)) : l.Nodup :=
    hl.imp fun hlt heq => by subst heq; exact absurd hlt (lt_irrefl _)
  exact (List.perm_of_nodup_nodup_toFinset_eq (hs h.1) (hs h'.1) (by ext c; simp [hmem])).eq_of_pairwise
    (fun a b _ _ h1 h2 => absurd h1 (by omega)) h.1 h'.1

/-! ### Blocks of bytes -/

/-- A read after a block of bytes has been written from address `a` upward. -/
theorem Memory.read_writeBytes (bytes : List Byte) (m : Memory) (a c : Nat) :
    (m.writeBytes a bytes).read c = if a ≤ c ∧ c < a + bytes.length then bytes.getD (c - a) 0 else m.read c := by
  induction bytes generalizing m a with
  | nil => simp [Memory.writeBytes]
  | cons b rest ih =>
    rw [Memory.writeBytes, ih, Memory.read_write]
    by_cases h : c = a
    · subst h
      simp
    · by_cases h1 : a + 1 ≤ c ∧ c < a + 1 + rest.length
      · have h2 : a ≤ c ∧ c < a + (b :: rest).length := by simp; omega
        have : c - a = (c - (a + 1)) + 1 := by omega
        rw [if_pos h1, if_pos h2, this]
        simp
      · have h2 : ¬ (a ≤ c ∧ c < a + (b :: rest).length) := by simp; omega
        rw [if_neg h1, if_neg h2, if_neg h]

/-- A block written inside the address space keeps the canonical form. -/
theorem Memory.writeBytes_wf (bytes : List Byte) {m : Memory} (h : m.wf) {a : Nat}
    (ha : a + bytes.length ≤ Config.memSize) : (m.writeBytes a bytes).wf := by
  induction bytes generalizing m a with
  | nil => simpa [Memory.writeBytes] using h
  | cons b rest ih =>
    simp only [List.length_cons] at ha
    exact ih (Memory.write_wf h b (by omega)) (by omega)

@[simp] theorem Memory.length_readBytes (m : Memory) (a n : Nat) : (m.readBytes a n).length = n := by
  simp [Memory.readBytes]

theorem Memory.getD_readBytes (m : Memory) (a : Nat) {n k : Nat} (h : k < n) :
    (m.readBytes a n).getD k 0 = m.read (a + k) := by
  simp [Memory.readBytes, h]

/-! ### The range check -/

/-- All the range check can answer: nothing if the `n` addresses exist, else the lowest that does not, which is
`max(a, 0x1000)` (60_exceptions.md R90). -/
theorem firstOutOfRange_eq (a n : Nat) :
    firstOutOfRange a n = if n = 0 ∨ a + n ≤ 0x1000 then none else some (max a 0x1000) := by
  induction n with
  | zero => simp [firstOutOfRange]
  | succ n ih =>
    have step : firstOutOfRange a (n + 1) =
        (firstOutOfRange a n).or (if a + n > 0xFFF then some (a + n) else none) := by
      simp only [firstOutOfRange, List.range_succ, List.map_append, List.find?_append, List.map_cons, List.map_nil,
        List.find?_cons, List.find?_nil]
      by_cases h : a + n > 0xFFF <;> simp [h]
    rw [step, ih]
    by_cases h0 : n = 0
    · subst h0
      by_cases h : a > 0xFFF
      · have h1 : max a 0x1000 = a := by omega
        have h2 : ¬ a + 1 ≤ 0x1000 := by omega
        simp only [h1, h2]; simpa using h
      · have h2 : a + 1 ≤ 0x1000 := by omega
        simp only [h2]; simpa using h
    · by_cases h1 : a + n ≤ 0x1000
      · by_cases h2 : a + n = 0x1000
        · have : max a 0x1000 = 0x1000 := by omega
          simp [h2, this]; omega
        · have : a + (n + 1) ≤ 0x1000 := by omega
          simp [h1, this]; omega
      · have h3 : ¬ (a + (n + 1) ≤ 0x1000) := by omega
        simp [h0, h1, h3]

end Sys2Proof.Machine
end

