-- ==== Sys2Proof/Laws/Registers.lean ====
section
/-! SUPPORT. What reading a register gives after each update, and the register-file operations. -/

namespace Sys2Proof.Machine

variable (s : State)

theorem State.reg_eq_of_v {s t : State} (h : t.v = s.v) (r : Reg) : t.reg r = s.reg r := by
  simp [State.reg, h]

theorem State.reg_setReg (r : Reg) (b : Byte) (q : Reg) :
    (s.setReg r b).reg q = if q = r then b else s.reg q := by
  simp only [State.reg, State.v_setReg, Fin.getElem_fin, Vector.getElem_set, Fin.ext_iff, eq_comm]

@[simp] theorem State.reg_setReg_self (r : Reg) (b : Byte) : (s.setReg r b).reg r = b := by
  simp [State.reg_setReg]

theorem State.reg_setReg_other {r q : Reg} (b : Byte) (h : q ≠ r) : (s.setReg r b).reg q = s.reg q := by
  simp [State.reg_setReg, h]

@[simp] theorem State.reg_setI (w : Word) (r : Reg) : (s.setI w).reg r = s.reg r := rfl
@[simp] theorem State.reg_setPc (w : Word) (r : Reg) : (s.setPc w).reg r = s.reg r := rfl
@[simp] theorem State.reg_setDT (b : Byte) (r : Reg) : (s.setDT b).reg r = s.reg r := rfl
@[simp] theorem State.reg_setST (b : Byte) (r : Reg) : (s.setST b).reg r = s.reg r := rfl
@[simp] theorem State.reg_setMem (m : Memory) (r : Reg) : (s.setMem m).reg r = s.reg r := rfl
@[simp] theorem State.reg_setKeys (k : Vector Bool 16) (r : Reg) : (s.setKeys k).reg r = s.reg r := rfl
@[simp] theorem State.reg_setFb (f : Framebuffer) (r : Reg) : (s.setFb f).reg r = s.reg r := rfl
@[simp] theorem State.reg_setDrawReq (b : Bool) (r : Reg) : (s.setDrawReq b).reg r = s.reg r := rfl
@[simp] theorem State.reg_countDraw (r : Reg) : s.countDraw.reg r = s.reg r := rfl
@[simp] theorem State.reg_push (w : Word) (r : Reg) : (s.push w).reg r = s.reg r := rfl
@[simp] theorem State.reg_pop (r : Reg) : s.pop.reg r = s.reg r := rfl
@[simp] theorem State.reg_advance (r : Reg) : s.advance.reg r = s.reg r := rfl
@[simp] theorem State.reg_skipIf (c : Bool) (r : Reg) : (s.skipIf c).reg r = s.reg r := rfl

/-- Registers `V[k]` to `V[k + length - 1]` hold the bytes, the others are as before. -/
theorem getElem_fillRegs (bytes : List Byte) (v : Vector Byte 16) (k j : Nat) (hj : j < 16) :
    (fillRegs v k bytes)[j] = if k ≤ j ∧ j < k + bytes.length then bytes.getD (j - k) 0 else v[j] := by
  induction bytes generalizing v k with
  | nil => simp [fillRegs]
  | cons b rest ih =>
    rw [fillRegs, ih]
    by_cases h : k = j
    · subst h
      simp
    · by_cases h1 : k + 1 ≤ j ∧ j < k + 1 + rest.length
      · have h2 : k ≤ j ∧ j < k + (b :: rest).length := by simp; omega
        rw [if_pos h1, if_pos h2]
        have : j - k = (j - (k + 1)) + 1 := by omega
        simp [this]
      · have h2 : ¬ (k ≤ j ∧ j < k + (b :: rest).length) := by simp; omega
        rw [if_neg h1, if_neg h2]
        simp [h]

/-- Loading bytes from `V0` upward: `V[r]` holds byte `r` if there is one, and is as before otherwise. -/
theorem State.reg_loadRegs (bytes : List Byte) (r : Reg) :
    (s.loadRegs bytes).reg r = if r.val < bytes.length then bytes.getD r.val 0 else s.reg r := by
  simp [State.reg, getElem_fillRegs]

theorem State.length_regsUpTo (x : Reg) : (s.regsUpTo x).length = x.val + 1 := by
  simp [State.regsUpTo]

/-- Byte `k` of `V0..Vx` is `V[k]`. -/
theorem State.getD_regsUpTo (x k : Reg) (h : k ≤ x) : (s.regsUpTo x).getD k.val 0 = s.reg k := by
  have hk : k.val < x.val + 1 := by have : k.val ≤ x.val := h; omega
  simp [State.regsUpTo, State.reg, hk]

/-- The result and the flag: `VF` holds the flag whatever `x` is, `V[x]` the result unless `x = F`. -/
theorem State.reg_writeResultThenFlag (x : Reg) (b : Byte) (flag : Bool) (r : Reg) :
    (s.writeResultThenFlag x b flag).reg r = if r = vf then flagByte flag else if r = x then b else s.reg r := by
  simp [State.writeResultThenFlag, State.reg_setReg]

/-- Writing a result and a flag changes the register file only. -/
theorem State.writeResultThenFlag_frame (x : Reg) (b : Byte) (flag : Bool) :
    s.writeResultThenFlag x b flag = { s with v := (s.writeResultThenFlag x b flag).v } := rfl

theorem flagByte_eq_zero_or_one (b : Bool) : flagByte b = 0 ∨ flagByte b = 1 := by
  cases b <;> simp [flagByte]

end Sys2Proof.Machine
end

