-- ==== Sys2Proof/Laws/Ops.lean ====
section
/-! SUPPORT. One lemma for each shared operation that says everything it can do. -/

namespace Sys2Proof.Machine

/-- Raising a fault answers one next state: the same state but for the latch and `draw_req`. -/
theorem raise_eq (code : FaultCode) (info : Nat) (s : State) :
    raise code info s = .next { s with fault := some ⟨code, info⟩, drawReq := false } := rfl

/-- Reading a block: the bytes if all of their addresses exist, else `MemOutOfRange` with the lowest that does not. -/
theorem withBytes_eq (a n : Nat) (s : State) (go : List Byte → Result) :
    withBytes a n s go =
      if n = 0 ∨ a + n ≤ 0x1000 then go (s.mem.readBytes a n) else raise .memOutOfRange (max a 0x1000) s := by
  rw [withBytes, firstOutOfRange_eq]
  by_cases h : n = 0 ∨ a + n ≤ 0x1000
  · rw [if_pos h, if_pos h]
  · rw [if_neg h, if_neg h]

/-- Storing a block: all of it if all of its addresses exist, else `MemOutOfRange` and nothing stored. -/
theorem storeBytes_eq (a : Nat) (bytes : List Byte) (s : State) (go : State → Result) :
    storeBytes a bytes s go =
      if bytes.length = 0 ∨ a + bytes.length ≤ 0x1000 then go (s.setMem (s.mem.writeBytes a bytes))
      else raise .memOutOfRange (max a 0x1000) s := by
  rw [storeBytes, firstOutOfRange_eq]
  by_cases h : bytes.length = 0 ∨ a + bytes.length ≤ 0x1000
  · rw [if_pos h, if_pos h]
  · rw [if_neg h, if_neg h]

/-- A key number is the value of the register when that is below 16, and nothing otherwise. -/
theorem keyNumber_eq_some {b : Byte} {k : Fin 16} : keyNumber b = some k ↔ b.toNat = k.val := by
  unfold keyNumber
  split
  · simp [Fin.ext_iff]
  · next h => simp; omega

theorem keyNumber_eq_none {b : Byte} : keyNumber b = none ↔ 15 < b.toNat := by
  unfold keyNumber
  split
  · next h => simp; omega
  · next h => simp; omega

/-- A register that names a key goes on with that key. -/
theorem withKey_of_key {b : Byte} (k : Fin 16) (h : b.toNat = k.val) (s : State) (go : Fin 16 → Result) :
    withKey b s go = go k := by
  simp [withKey, keyNumber_eq_some.mpr h]

/-- A register that names no key raises `KeyIndexOutOfRange`. -/
theorem withKey_of_no_key {b : Byte} (h : 15 < b.toNat) (s : State) (go : Fin 16 → Result) :
    withKey b s go = raise .keyIndexOutOfRange b.toNat s := by
  simp [withKey, keyNumber_eq_none.mpr h]

/-- The least held key is held, and no lower key is. -/
theorem State.leastHeld_eq_some {s : State} {k : Fin 16} (h : s.leastHeld = some k) :
    s.held k = true ∧ ∀ j < k, s.held j = false := by
  rw [State.leastHeld, List.find?_eq_some_iff_getElem] at h
  obtain ⟨hk, i, hi, hik, hlow⟩ := h
  refine ⟨hk, fun j hj => ?_⟩
  simp only [List.getElem_finRange] at hik hlow
  have hik' : i = k.val := by rw [← hik]; simp
  have hji : j.val < i := by rw [hik']; exact hj
  have := hlow j.val hji
  simpa using this

/-- There is no least held key exactly when no key is held. -/
theorem State.leastHeld_eq_none {s : State} : s.leastHeld = none ↔ ∀ k, s.held k = false := by
  simp [State.leastHeld, List.find?_eq_none]

/-- Popping what was just pushed gives back the stack pointer; the entry on top is what was pushed. -/
theorem State.top_push (s : State) (w : Word) (h : s.sp.toNat < 15) : (s.push w).top = w := by
  have hs : (s.sp + 1).toNat = s.sp.toNat + 1 := by
    rw [BitVec.toNat_add]; simp; omega
  simp only [State.top, State.sp_push, State.stack_push, hs]
  rw [Vector.getElem?_setIfInBounds_self]
  simp [show s.sp.toNat + 1 < 16 by omega]

theorem State.sp_pop_push (s : State) (w : Word) : (s.push w).pop.sp = s.sp := by
  simp

end Sys2Proof.Machine
end

