-- ==== Sys2Proof/Laws/Step.lean ====
section
/-! SUPPORT. Where the host places an instruction, the next step fetches it. -/

namespace Sys2Proof.Machine

theorem State.fetchPlace_le (s : State) : s.fetchPlace ≤ 0xFFE := by
  unfold State.fetchPlace
  split
  · decide
  · omega

@[simp] theorem State.fault_withFetchWord (s : State) (nbits w : Nat) : (s.withFetchWord nbits w).fault = none := rfl

theorem State.pc_withFetchWord (s : State) (nbits w : Nat) : (s.withFetchWord nbits w).pc.toNat = s.fetchPlace := by
  have h := s.fetchPlace_le
  simp only [State.withFetchWord, BitVec.toNat_ofNat]
  omega

/-- A state whose `pc` can be fetched at keeps it. -/
theorem State.pc_withFetchWord_of_le {s : State} (h : s.pc.toNat ≤ 0xFFE) (nbits w : Nat) :
    (s.withFetchWord nbits w).pc = s.pc := by
  have hp : s.fetchPlace = s.pc.toNat := by
    unfold State.fetchPlace
    rw [if_neg (by omega)]
  simp [State.withFetchWord, hp]

/-- The word that the next step fetches is the placed one. -/
theorem State.wordAt_withFetchWord (s : State) (w : Nat) (h : w < 2 ^ 16) :
    (s.withFetchWord 16 w).wordAt (s.withFetchWord 16 w).pc.toNat = BitVec.ofNat 16 w := by
  rw [State.pc_withFetchWord]
  have hm : w % 2 ^ 16 = w := Nat.mod_eq_of_lt h
  simp only [State.wordAt, State.withFetchWord, hm, Memory.read_writeBytes]
  simp [wordBytes, wordOfBytes_bytes]

/-- The placed word keeps the canonical form of memory. -/
theorem State.memWf_withFetchWord {s : State} (h : s.mem.wf) (nbits w : Nat) : (s.withFetchWord nbits w).mem.wf := by
  have hp := s.fetchPlace_le
  exact Memory.writeBytes_wf _ h (by simp [wordBytes, Config.memSize]; omega)

end Sys2Proof.Machine
end

