-- ==== Sys2Proof/Laws/Events.lean ====
section
/-! SUPPORT. The events beside `step`, and the one induction over runs. -/

namespace Sys2Proof.Machine

/-- A timer after a tick, as a number. -/
theorem toNat_countDown (b : Byte) : (countDown b).toNat = b.toNat - 1 := by
  unfold countDown
  split
  · rw [BitVec.toNat_sub_of_le (by rw [BitVec.le_def]; simp; omega)]
    simp
  · omega

@[simp] theorem runEvents_nil (s : State) : runEvents [] s = .next s := rfl

theorem runEvents_cons_of_next {e : Event} {s t : State} (h : applyEvent e s = .next t) (rest : List Event) :
    runEvents (e :: rest) s = runEvents rest t := by
  simp [runEvents, h]

/-- What every event of a run keeps, the run keeps; and if every event answers a next state, so does the run. -/
theorem runEvents_keeps {P : State → Prop} {events : List Event}
    (hstep : ∀ e ∈ events, ∀ s, P s → ∃ t, applyEvent e s = .next t ∧ P t) {s : State} (hs : P s) :
    ∃ t, runEvents events s = .next t ∧ P t := by
  induction events generalizing s with
  | nil => exact ⟨s, rfl, hs⟩
  | cons e rest ih =>
    obtain ⟨t, ht, hP⟩ := hstep e List.mem_cons_self s hs
    rw [runEvents_cons_of_next ht]
    exact ih (fun e he => hstep e (List.mem_cons_of_mem _ he)) hP

/-- The load of a program keeps the canonical form of memory. -/
theorem loadProgram_memWf {program : List Byte} {s t : State} (h : loadProgram program s = .next t) (hs : s.mem.wf) :
    t.mem.wf := by
  unfold loadProgram at h
  split at h
  · cases h
  · cases h
    refine Memory.writeBytes_wf _ hs ?_
    simp only [Config.romBase, Config.memSize, Config.romMax] at *
    omega

/-- A write through the load port keeps the canonical form of memory. -/
theorem hostLoad_memWf (a : Addr12) (b : Byte) {s : State} (hs : s.mem.wf) : (hostLoad a b s).mem.wf :=
  Memory.write_wf hs b a.isLt

end Sys2Proof.Machine
end

