-- ==== Sys2Proof/Laws/PerInstr.lean ====
section
/-! SUPPORT. Statements made of every instruction, one lemma per constructor: the family `MnemonicRow` says that the
opcode table has exactly one row with the instruction's mnemonic, and that the instruction's encoding is a word of that
row (30_encoding.md section 4). -/

namespace Sys2Proof.Laws.MnemonicRow

/-- The one row of the table with this mnemonic covers the encoding. -/
def Statement (i : Instr) : Prop :=
  ∃ r, opcodeTable.filter (fun r => r.mnemonic = i.mnemonic) = [r] ∧ r.covers (encode i) = true

/-- A word of format `A` under the mask of its family. -/
theorem mask_encodeA (f : Nibble) (nnn : Addr12) : encodeA f nnn &&& 0xF000#16 = f ++ (0 : Addr12) := by
  have h : 0xF000#16 = (0xF : Nibble) ++ (0 : Addr12) := by decide
  rw [encodeA, h, BitVec.and_append]
  congr 1
  · exact BitVec.and_allOnes
  · exact BitVec.and_zero

theorem encodeXI_eq_encodeA (f : Nibble) (x : Reg) (nn : Byte) :
    encodeXI f x nn = encodeA f (regBits x ++ nn) := rfl

theorem encodeXYN_eq_encodeA (f : Nibble) (x y : Reg) (n : Nibble) :
    encodeXYN f x y n = encodeA f (regBits x ++ (regBits y ++ n)) := rfl

/-- A word of format `XS` under the mask of its family and low byte. -/
theorem mask_encodeXI (f : Nibble) (x : Reg) (nn : Byte) :
    encodeXI f x nn &&& 0xF0FF#16 = f ++ ((0 : Nibble) ++ nn) := by
  have h : 0xF0FF#16 = (0xF : Nibble) ++ ((0 : Nibble) ++ (0xFF : Byte)) := by decide
  rw [encodeXI, h, BitVec.and_append, BitVec.and_append]
  congr 1
  · exact BitVec.and_allOnes
  · congr 1
    · exact BitVec.and_zero
    · exact BitVec.and_allOnes

/-- A word of format `XY` under the mask of its family and low nibble. -/
theorem mask_encodeXYN (f : Nibble) (x y : Reg) (n : Nibble) :
    encodeXYN f x y n &&& 0xF00F#16 = f ++ ((0 : Nibble) ++ ((0 : Nibble) ++ n)) := by
  have h : 0xF00F#16 = (0xF : Nibble) ++ ((0 : Nibble) ++ ((0 : Nibble) ++ (0xF : Nibble))) := by decide
  rw [encodeXYN, h, BitVec.and_append, BitVec.and_append, BitVec.and_append]
  congr 1
  · exact BitVec.and_allOnes
  · congr 1
    · exact BitVec.and_zero
    · congr 1
      · exact BitVec.and_zero
      · exact BitVec.and_allOnes

theorem of_row {i : Instr} (m : String) (r : OpcodeRow) (hm : i.mnemonic = m)
    (hr : opcodeTable.filter (fun r => r.mnemonic = m) = [r]) (hc : encode i &&& r.mask = r.pattern) : Statement i :=
  ⟨r, hm ▸ hr, by simp [OpcodeRow.covers, hc]⟩

theorem cls : Statement .cls :=
  of_row "CLS" ⟨"CLS", 0x00E0, 0xFFFF⟩ rfl (by decide) (by decide)

theorem ret : Statement .ret :=
  of_row "RET" ⟨"RET", 0x00EE, 0xFFFF⟩ rfl (by decide) (by decide)

theorem jp (nnn : Addr12) : Statement (.jp nnn) :=
  of_row "JP" ⟨"JP", 0x1000, 0xF000⟩ rfl (by decide) (mask_encodeA _ _)

theorem call (nnn : Addr12) : Statement (.call nnn) :=
  of_row "CALL" ⟨"CALL", 0x2000, 0xF000⟩ rfl (by decide) (mask_encodeA _ _)

theorem seImm (x : Reg) (nn : Byte) : Statement (.seImm x nn) :=
  of_row "SE_IMM" ⟨"SE_IMM", 0x3000, 0xF000⟩ rfl (by decide) (mask_encodeA _ _)

theorem sneImm (x : Reg) (nn : Byte) : Statement (.sneImm x nn) :=
  of_row "SNE_IMM" ⟨"SNE_IMM", 0x4000, 0xF000⟩ rfl (by decide) (mask_encodeA _ _)

theorem seReg (x : Reg) (y : Reg) : Statement (.seReg x y) :=
  of_row "SE_REG" ⟨"SE_REG", 0x5000, 0xF000⟩ rfl (by decide) (mask_encodeA _ _)

theorem ldImm (x : Reg) (nn : Byte) : Statement (.ldImm x nn) :=
  of_row "LD_IMM" ⟨"LD_IMM", 0x6000, 0xF000⟩ rfl (by decide) (mask_encodeA _ _)

theorem addImm (x : Reg) (nn : Byte) : Statement (.addImm x nn) :=
  of_row "ADD_IMM" ⟨"ADD_IMM", 0x7000, 0xF000⟩ rfl (by decide) (mask_encodeA _ _)

theorem ldReg (x : Reg) (y : Reg) : Statement (.ldReg x y) :=
  of_row "LD_REG" ⟨"LD_REG", 0x8000, 0xF00F⟩ rfl (by decide) (mask_encodeXYN _ _ _ _)

theorem or (x : Reg) (y : Reg) : Statement (.or x y) :=
  of_row "OR" ⟨"OR", 0x8001, 0xF00F⟩ rfl (by decide) (mask_encodeXYN _ _ _ _)

theorem and (x : Reg) (y : Reg) : Statement (.and x y) :=
  of_row "AND" ⟨"AND", 0x8002, 0xF00F⟩ rfl (by decide) (mask_encodeXYN _ _ _ _)

theorem xor (x : Reg) (y : Reg) : Statement (.xor x y) :=
  of_row "XOR" ⟨"XOR", 0x8003, 0xF00F⟩ rfl (by decide) (mask_encodeXYN _ _ _ _)

theorem addReg (x : Reg) (y : Reg) : Statement (.addReg x y) :=
  of_row "ADD_REG" ⟨"ADD_REG", 0x8004, 0xF00F⟩ rfl (by decide) (mask_encodeXYN _ _ _ _)

theorem sub (x : Reg) (y : Reg) : Statement (.sub x y) :=
  of_row "SUB" ⟨"SUB", 0x8005, 0xF00F⟩ rfl (by decide) (mask_encodeXYN _ _ _ _)

theorem shr (x : Reg) (y : Reg) : Statement (.shr x y) :=
  of_row "SHR" ⟨"SHR", 0x8006, 0xF00F⟩ rfl (by decide) (mask_encodeXYN _ _ _ _)

theorem subn (x : Reg) (y : Reg) : Statement (.subn x y) :=
  of_row "SUBN" ⟨"SUBN", 0x8007, 0xF00F⟩ rfl (by decide) (mask_encodeXYN _ _ _ _)

theorem shl (x : Reg) (y : Reg) : Statement (.shl x y) :=
  of_row "SHL" ⟨"SHL", 0x800E, 0xF00F⟩ rfl (by decide) (mask_encodeXYN _ _ _ _)

theorem sneReg (x : Reg) (y : Reg) : Statement (.sneReg x y) :=
  of_row "SNE_REG" ⟨"SNE_REG", 0x9000, 0xF000⟩ rfl (by decide) (mask_encodeA _ _)

theorem ldI (nnn : Addr12) : Statement (.ldI nnn) :=
  of_row "LD_I" ⟨"LD_I", 0xA000, 0xF000⟩ rfl (by decide) (mask_encodeA _ _)

theorem jpV0 (nnn : Addr12) : Statement (.jpV0 nnn) :=
  of_row "JP_V0" ⟨"JP_V0", 0xB000, 0xF000⟩ rfl (by decide) (mask_encodeA _ _)

theorem rnd (x : Reg) (nn : Byte) : Statement (.rnd x nn) :=
  of_row "RND" ⟨"RND", 0xC000, 0xF000⟩ rfl (by decide) (mask_encodeA _ _)

theorem drw (x : Reg) (y : Reg) (n : Nat) : Statement (.drw x y n) :=
  of_row "DRW" ⟨"DRW", 0xD000, 0xF000⟩ rfl (by decide) (mask_encodeA _ _)

theorem skp (x : Reg) : Statement (.skp x) :=
  of_row "SKP" ⟨"SKP", 0xE09E, 0xF0FF⟩ rfl (by decide) (mask_encodeXI _ _ _)

theorem sknp (x : Reg) : Statement (.sknp x) :=
  of_row "SKNP" ⟨"SKNP", 0xE0A1, 0xF0FF⟩ rfl (by decide) (mask_encodeXI _ _ _)

theorem ldVxDt (x : Reg) : Statement (.ldVxDt x) :=
  of_row "LD_VX_DT" ⟨"LD_VX_DT", 0xF007, 0xF0FF⟩ rfl (by decide) (mask_encodeXI _ _ _)

theorem ldVxK (x : Reg) : Statement (.ldVxK x) :=
  of_row "LD_VX_K" ⟨"LD_VX_K", 0xF00A, 0xF0FF⟩ rfl (by decide) (mask_encodeXI _ _ _)

theorem ldDtVx (x : Reg) : Statement (.ldDtVx x) :=
  of_row "LD_DT_VX" ⟨"LD_DT_VX", 0xF015, 0xF0FF⟩ rfl (by decide) (mask_encodeXI _ _ _)

theorem ldStVx (x : Reg) : Statement (.ldStVx x) :=
  of_row "LD_ST_VX" ⟨"LD_ST_VX", 0xF018, 0xF0FF⟩ rfl (by decide) (mask_encodeXI _ _ _)

theorem addI (x : Reg) : Statement (.addI x) :=
  of_row "ADD_I" ⟨"ADD_I", 0xF01E, 0xF0FF⟩ rfl (by decide) (mask_encodeXI _ _ _)

theorem ldF (x : Reg) : Statement (.ldF x) :=
  of_row "LD_F" ⟨"LD_F", 0xF029, 0xF0FF⟩ rfl (by decide) (mask_encodeXI _ _ _)

theorem ldB (x : Reg) : Statement (.ldB x) :=
  of_row "LD_B" ⟨"LD_B", 0xF033, 0xF0FF⟩ rfl (by decide) (mask_encodeXI _ _ _)

theorem stRegs (x : Reg) : Statement (.stRegs x) :=
  of_row "ST_REGS" ⟨"ST_REGS", 0xF055, 0xF0FF⟩ rfl (by decide) (mask_encodeXI _ _ _)

theorem ldRegs (x : Reg) : Statement (.ldRegs x) :=
  of_row "LD_REGS" ⟨"LD_REGS", 0xF065, 0xF0FF⟩ rfl (by decide) (mask_encodeXI _ _ _)

end Sys2Proof.Laws.MnemonicRow
end

