-- ==== Sys2Proof/Machine/Assembly.lean ====
section
/-! DEFINITION. The assembler notation of the spec (30_encoding.md R48, its own decision D26): the text of an
instruction, and the bytes of a listing. It has no effect on behaviour. -/

namespace Sys2Proof

/-- A hexadecimal digit. -/
def hexDigit (n : Nat) : String :=
  ["0", "1", "2", "3", "4", "5", "6", "7", "8", "9", "A", "B", "C", "D", "E", "F"].getD n ""

/-- `V0` to `VF`. -/
def regText (r : Reg) : String := "V" ++ hexDigit r.val

/-- An immediate byte, in hexadecimal with `0x`; always two digits (DESIGN CHOICE, log entry 30). -/
def byteText (b : Byte) : String := "0x" ++ hexDigit (b.toNat / 16) ++ hexDigit (b.toNat % 16)

/-- An address, in hexadecimal with `0x`; always three digits (DESIGN CHOICE, log entry 30). -/
def addrText (a : Addr12) : String :=
  "0x" ++ hexDigit (a.toNat / 256) ++ hexDigit (a.toNat / 16 % 16) ++ hexDigit (a.toNat % 16)

/-- `OP Vx, Vy`. -/
def twoRegsText (op : String) (x y : Reg) : String := op ++ " " ++ regText x ++ ", " ++ regText y

/-- `OP Vx, nn`. -/
def immText (op : String) (x : Reg) (nn : Byte) : String := op ++ " " ++ regText x ++ ", " ++ byteText nn

/-- A shift: the ignored `y` is written only when it is not 0 (R48). -/
def shiftText (op : String) (x y : Reg) : String := if y = 0 then op ++ " " ++ regText x else twoRegsText op x y

/-- The text of an instruction, by the mnemonics of 30_encoding.md section 4. -/
def Instr.assembly (i : Instr) : String :=
  match i with
  | .cls => "CLS"
  | .ret => "RET"
  | .jp nnn => "JP " ++ addrText nnn
  | .call nnn => "CALL " ++ addrText nnn
  | .seImm x nn => immText "SE" x nn
  | .sneImm x nn => immText "SNE" x nn
  | .seReg x y => twoRegsText "SE" x y
  | .ldImm x nn => immText "LD" x nn
  | .addImm x nn => immText "ADD" x nn
  | .ldReg x y => twoRegsText "LD" x y
  | .or x y => twoRegsText "OR" x y
  | .and x y => twoRegsText "AND" x y
  | .xor x y => twoRegsText "XOR" x y
  | .addReg x y => twoRegsText "ADD" x y
  | .sub x y => twoRegsText "SUB" x y
  | .shr x y => shiftText "SHR" x y
  | .subn x y => twoRegsText "SUBN" x y
  | .shl x y => shiftText "SHL" x y
  | .sneReg x y => twoRegsText "SNE" x y
  | .ldI nnn => "LD I, " ++ addrText nnn
  | .jpV0 nnn => "JP V0, " ++ addrText nnn
  | .rnd x nn => immText "RND" x nn
  | .drw x y n => twoRegsText "DRW" x y ++ ", 0x" ++ hexDigit n
  | .skp x => "SKP " ++ regText x
  | .sknp x => "SKNP " ++ regText x
  | .ldVxDt x => "LD " ++ regText x ++ ", DT"
  | .ldVxK x => "LD " ++ regText x ++ ", K"
  | .ldDtVx x => "LD DT, " ++ regText x
  | .ldStVx x => "LD ST, " ++ regText x
  | .addI x => "ADD I, " ++ regText x
  | .ldF x => "LD F, " ++ regText x
  | .ldB x => "LD B, " ++ regText x
  | .stRegs x => "LD [I], " ++ regText x
  | .ldRegs x => "LD " ++ regText x ++ ", [I]"

/-- The four instructions in which a label may stand for `nnn`. -/
inductive LabelUse where
  | jp
  | call
  | ldI
  | jpV0
deriving DecidableEq, Repr

/-- The instruction, its address known. -/
def LabelUse.instr (u : LabelUse) (nnn : Addr12) : Instr :=
  match u with
  | .jp => .jp nnn
  | .call => .call nnn
  | .ldI => .ldI nnn
  | .jpV0 => .jpV0 nnn

/-- One line of a listing (R48). -/
inductive Line where
  /-- `name:`, the address of the next instruction. -/
  | label (name : String)
  | instr (i : Instr)
  /-- An instruction with a label for `nnn`. -/
  | toLabel (u : LabelUse) (name : String)
  /-- `DB b, b, ...`, raw bytes. -/
  | db (bytes : List Byte)
deriving DecidableEq, Repr

/-- How many bytes a line places. -/
def Line.length (l : Line) : Nat :=
  match l with
  | .label _ => 0
  | .instr _ | .toLabel _ _ => 2
  | .db bytes => bytes.length

/-- The address that a label names in a listing that starts at `a`. R48: "the address of the next instruction". DESIGN
CHOICE where R48 leaves it open, log entry 30: a label before a `DB` line names the first of its bytes, a label at the
end of a listing the address after the last byte, and of two definitions the first counts. -/
def labelAddress (lines : List Line) (name : String) (a : Nat) : Option Nat :=
  match lines with
  | [] => none
  | .label m :: rest => if m = name then some a else labelAddress rest name a
  | l :: rest => labelAddress rest name (a + l.length)

/-- The bytes of one line of a listing that starts at `a`; none if it names no label of the listing, or one beyond the
12 bits of `nnn` (DESIGN CHOICE, log entry 30). -/
def lineBytes (listing : List Line) (a : Nat) (l : Line) : Option (List Byte) :=
  match l with
  | .label _ => some []
  | .instr i => some (wordBytes (encode i))
  | .toLabel u name =>
    match labelAddress listing name a with
    | some t => if t < 4096 then some (wordBytes (encode (u.instr (BitVec.ofNat 12 t)))) else none
    | none => none
  | .db bytes => some bytes

/-- The bytes of a listing that starts at `a`. -/
def assemble (a : Nat) (listing : List Line) : Option (List Byte) :=
  (listing.mapM (lineBytes listing a)).map List.flatten

end Sys2Proof
end

