-- ==== Sys2Proof/Tests/Slice0.lean ====
section
/-! SUPPORT. Tests: each expected value is taken from 95_test_vectors.md (its row is named) or, for encodings, written
out from 30_encoding.md section 4. After them, for every statement with hypotheses, a state and operands that meet
them. -/

namespace Sys2Proof.Tests

open Sys2Proof.Machine

/-! ### Helpers -/

/-- What `f` shows of a next state. -/
def seen {α : Type} (r : Result) (f : State → α) : Option α :=
  match r with
  | .next t => some (f t)
  | .fault _ => none
  | .refused _ => none

/-- One step of `s` with the instruction word `w` at its `pc`. -/
def run1 {α : Type} (w : Nat) (s : State) (f : State → α) : Option α := seen (step (s.withFetchWord 16 w)) f

/-- The reset state with these registers. -/
def withRegs (l : List (Reg × Byte)) : State := l.foldl (fun s p => s.setReg p.1 p.2) State.reset

/-- The reset state with `V1 = a`, `V2 = b`, `VF = 0x77`. -/
def operands (a b : Byte) : State := withRegs [(1, a), (2, b), (15, 0x77)]

/-- `V1` and `VF`. -/
def resultAndFlag (t : State) : Byte × Byte := (t.reg 1, t.reg 15)

/-- The reset state with exactly these keys held. -/
def withKeys (l : List (Fin 16)) (s : State) : State := s.setKeys (Vector.ofFn fun k => decide (k ∈ l))

/-! ### Well-formedness: every check refuses something -/

theorem test_wellFormed_refuses_row_count : (Instr.drw 0 0 16).wellFormed = false := by decide

theorem test_wellFormed_admits_largest_row_count : (Instr.drw 15 15 15).wellFormed = true := by decide

/-! ### Decoding: each constructor from a word written out bit by bit (30_encoding.md section 4) -/

theorem test_decode_control_transfer :
    decodeWord 0b0000000011100000#16 = .ok .cls ∧
    decodeWord 0b0000000011101110#16 = .ok .ret ∧
    decodeWord 0b0001101010111100#16 = .ok (.jp 0xABC) ∧
    decodeWord 0b0010101010111100#16 = .ok (.call 0xABC) ∧
    decodeWord 0b0011000110101011#16 = .ok (.seImm 1 0xAB) ∧
    decodeWord 0b0100000110101011#16 = .ok (.sneImm 1 0xAB) ∧
    decodeWord 0b0101000100100000#16 = .ok (.seReg 1 2) ∧
    decodeWord 0b1001000100100000#16 = .ok (.sneReg 1 2) ∧
    decodeWord 0b1011001100000000#16 = .ok (.jpV0 0x300) := by decide

theorem test_decode_arithmetic :
    decodeWord 0b0110000110101011#16 = .ok (.ldImm 1 0xAB) ∧
    decodeWord 0b0111000111111111#16 = .ok (.addImm 1 0xFF) ∧
    decodeWord 0b1000000100100000#16 = .ok (.ldReg 1 2) ∧
    decodeWord 0b1000000100100001#16 = .ok (.or 1 2) ∧
    decodeWord 0b1000000100100010#16 = .ok (.and 1 2) ∧
    decodeWord 0b1000000100100011#16 = .ok (.xor 1 2) ∧
    decodeWord 0b1000000100100100#16 = .ok (.addReg 1 2) ∧
    decodeWord 0b1000000100100101#16 = .ok (.sub 1 2) ∧
    decodeWord 0b1000000100100110#16 = .ok (.shr 1 2) ∧
    decodeWord 0b1000000100100111#16 = .ok (.subn 1 2) ∧
    decodeWord 0b1000000100101110#16 = .ok (.shl 1 2) ∧
    decodeWord 0b1100000100001111#16 = .ok (.rnd 1 0x0F) := by decide

theorem test_decode_index_memory_display :
    decodeWord 0b1010000100100011#16 = .ok (.ldI 0x123) ∧
    decodeWord 0b1111000100011110#16 = .ok (.addI 1) ∧
    decodeWord 0b1111000100101001#16 = .ok (.ldF 1) ∧
    decodeWord 0b1111000100110011#16 = .ok (.ldB 1) ∧
    decodeWord 0b1111001001010101#16 = .ok (.stRegs 2) ∧
    decodeWord 0b1111001001100101#16 = .ok (.ldRegs 2) ∧
    decodeWord 0b1101000100100101#16 = .ok (.drw 1 2 5) := by decide

theorem test_decode_keys_timers :
    decodeWord 0b1110000110011110#16 = .ok (.skp 1) ∧
    decodeWord 0b1110000110100001#16 = .ok (.sknp 1) ∧
    decodeWord 0b1111000100000111#16 = .ok (.ldVxDt 1) ∧
    decodeWord 0b1111010100001010#16 = .ok (.ldVxK 5) ∧
    decodeWord 0b1111001000010101#16 = .ok (.ldDtVx 2) ∧
    decodeWord 0b1111001000011000#16 = .ok (.ldStVx 2) := by decide

/-- T-DEC-3 to T-DEC-6. -/
theorem test_decode_unmatched :
    decodeWord 0x0000#16 = .error (.unmatched 0) ∧ decodeWord 0x0AEE#16 = .error (.unmatched 0x0AEE) ∧
    decodeWord 0x812F#16 = .error (.unmatched 0x812F) ∧ decodeWord 0xE1FF#16 = .error (.unmatched 0xE1FF) ∧
    decodeWord 0xF185#16 = .error (.unmatched 0xF185) := by decide

/-- T-DEC-7, T-DEC-8: the low nibble is not examined in families 5 and 9. -/
theorem test_decode_low_nibble_ignored :
    decodeWord 0x5127#16 = .ok (.seReg 1 2) ∧ decodeWord 0x912F#16 = .ok (.sneReg 1 2) := by decide

/-- 20_memory.md R25: the first byte is the high byte (T-DEC-1), and the bytes after the instruction are left. -/
theorem test_decode_bytes :
    decode [0x61, 0xAB, 0x00] = .ok (.ldImm 1 0xAB, [0x00]) ∧ decode [0x61] = .error .tooShort ∧
    decodeTableWord 16 0x61AB = some (.ldImm 1 0xAB) ∧ decodeTableWord 16 0x00E1 = none := by decide

/-- The listing of program P2 assembles to its bytes (95_test_vectors.md part 3; 30_encoding.md R48). -/
theorem test_assemble :
    assemble Config.romBase [.instr (.ldImm 0 0x00), .instr (.ldImm 1 0x0A), .label "loop", .toLabel .call "add",
      .instr (.seImm 1 0x00), .toLabel .jp "loop", .label "end", .toLabel .jp "end", .label "add",
      .instr (.addReg 0 1), .instr (.addImm 1 0xFF), .instr .ret] =
    some [0x60, 0x00, 0x61, 0x0A, 0x22, 0x0C, 0x31, 0x00, 0x12, 0x04, 0x12, 0x0A, 0x80, 0x14, 0x71, 0xFF, 0x00,
      0xEE] := by decide

theorem test_assembly :
    (Instr.drw 1 2 5).assembly = "DRW V1, V2, 0x5" ∧ (Instr.stRegs 15).assembly = "LD [I], VF" ∧
    (Instr.shr 1 0).assembly = "SHR V1" ∧ (Instr.jpV0 0x300).assembly = "JP V0, 0x300" := by decide

/-! ### Fetch and step -/

/-- T-DEC-2. -/
theorem test_step_unmatched_holds_pc :
    run1 0x0000 { State.reset with drawReq := true } (fun t => (t.pc, t.drawReq, t.fault)) =
      some (0x0200, false, none) := by decide

/-- T-DEC-10: the last fetchable address, and the first that is not. -/
theorem test_step_at_the_end_of_memory :
    run1 0x6A11 { State.reset with pc := 0x0FFE } (fun t => (t.reg 10, t.pc)) = some (0x11, 0x1000) ∧
    seen (step { State.reset with pc := 0x1000 }) (fun t => (t.pc, t.fault)) =
      some (0x1000, some ⟨.pcOutOfRange, 0x1000⟩) := by decide

/-! ### Control transfer -/

/-- T-CTL-9, T-CTL-17. -/
theorem test_jp : run1 0x1ABC State.reset (fun t => (t.pc, t.sp)) = some (0x0ABC, 0) ∧
    run1 0x1FFF State.reset (·.pc) = some 0x0FFF := by decide

/-- T-CTL-11. -/
theorem test_call : run1 0x2ABC State.reset (fun t => (t.sp, t.stack[1], t.stack[0], t.pc)) =
    some (1, 0x0200, 0, 0x0ABC) := by decide

/-- T-CTL-14. -/
theorem test_call_overflow : run1 0x2200 { State.reset with sp := 15 } (fun t => (t.fault, t.sp, t.pc)) =
    some (some ⟨.stackOverflow, 0x200⟩, 15, 0x0200) := by decide

/-- T-CTL-12. -/
theorem test_ret : run1 0x00EE { State.reset with pc := 0x0300, sp := 1, stack := State.reset.stack.set 1 0x0200 }
    (fun t => (t.pc, t.sp, t.stack[1])) = some (0x0202, 0, 0x0200) := by decide

/-- T-CTL-13. -/
theorem test_ret_underflow : run1 0x00EE State.reset (fun t => (t.fault, t.pc)) =
    some (some ⟨.stackUnderflow, 0x200⟩, 0x0200) := by decide

/-- T-CTL-15, T-CTL-16. -/
theorem test_jpV0 : run1 0xB300 (withRegs [(0, 0x10)]) (·.pc) = some 0x0310 ∧
    run1 0xBFFF (withRegs [(0, 0xFF)]) (·.pc) = some 0x10FE := by decide

/-- T-CTL-1, T-CTL-2. -/
theorem test_seImm : run1 0x31AB (operands 0xAB 0) (·.pc) = some 0x0204 ∧
    run1 0x31AB (operands 0xAC 0) (·.pc) = some 0x0202 := by decide

/-- T-CTL-3, T-CTL-4. -/
theorem test_sneImm : run1 0x41AB (operands 0xAB 0) (·.pc) = some 0x0202 ∧
    run1 0x41AB (operands 0xAC 0) (·.pc) = some 0x0204 := by decide

/-- T-CTL-5, T-CTL-6, T-CTL-8. -/
theorem test_seReg : run1 0x5120 (operands 7 7) (·.pc) = some 0x0204 ∧
    run1 0x5120 (operands 7 8) (·.pc) = some 0x0202 ∧ run1 0x5110 (operands 7 8) (·.pc) = some 0x0204 := by decide

/-- T-CTL-7, T-CTL-8. -/
theorem test_sneReg : run1 0x9120 (operands 7 8) (·.pc) = some 0x0204 ∧
    run1 0x9120 (operands 7 7) (·.pc) = some 0x0202 ∧ run1 0x9110 (operands 7 8) (·.pc) = some 0x0202 := by decide

/-! ### Load, arithmetic, logic, shift, random -/

/-- T-ALU-39. -/
theorem test_ldImm : run1 0x6FAB State.reset (·.reg 15) = some 0xAB ∧
    run1 0x6000 (withRegs [(0, 0x55)]) (·.reg 0) = some 0x00 := by decide

/-- T-ALU-40. -/
theorem test_addImm : run1 0x71FF (operands 0x00 0) resultAndFlag = some (0xFF, 0x77) ∧
    run1 0x7101 (operands 0xFF 0) resultAndFlag = some (0x00, 0x77) ∧
    run1 0x7F01 (withRegs [(15, 0xFF)]) (·.reg 15) = some 0x00 := by decide

/-- T-ALU-20, T-ALU-28. -/
theorem test_ldReg : run1 0x8120 (operands 0x11 0x22) resultAndFlag = some (0x22, 0x77) ∧
    run1 0x8110 (operands 0x90 0) resultAndFlag = some (0x90, 0x77) := by decide

/-- T-ALU-21, T-ALU-38. -/
theorem test_or : run1 0x8121 (operands 0xA5 0x5A) resultAndFlag = some (0xFF, 0x77) ∧
    run1 0x8F21 (withRegs [(15, 0x0F), (2, 0xF0)]) (·.reg 15) = some 0xFF := by decide

/-- T-ALU-22. -/
theorem test_and : run1 0x8122 (operands 0xA5 0x0F) resultAndFlag = some (0x05, 0x77) := by decide

/-- T-ALU-23. -/
theorem test_xor : run1 0x8123 (operands 0xA5 0xFF) resultAndFlag = some (0x5A, 0x77) := by decide

/-- T-ALU-1, T-ALU-3. -/
theorem test_addReg : run1 0x8124 (operands 0xFF 0x01) resultAndFlag = some (0x00, 0x01) ∧
    run1 0x8124 (operands 0x80 0x7F) resultAndFlag = some (0xFF, 0x00) := by decide

/-- T-ALU-31, T-ALU-35, T-ALU-37: `VF` as a destination and as an operand. -/
theorem test_addReg_vf : run1 0x8F24 (withRegs [(15, 0x01), (2, 0x02)]) (·.reg 15) = some 0x00 ∧
    run1 0x81F4 (withRegs [(1, 0xFF), (15, 0x01)]) resultAndFlag = some (0x00, 0x01) ∧
    run1 0x8FF4 (withRegs [(15, 0x90)]) (·.reg 15) = some 0x01 := by decide

/-- T-ALU-5, T-ALU-6, T-ALU-8. -/
theorem test_sub : run1 0x8125 (operands 0x05 0x05) resultAndFlag = some (0x00, 0x01) ∧
    run1 0x8125 (operands 0x00 0x01) resultAndFlag = some (0xFF, 0x00) ∧
    run1 0x8125 (operands 0x10 0x20) resultAndFlag = some (0xF0, 0x00) := by decide

/-- T-ALU-32, T-ALU-36. -/
theorem test_sub_vf : run1 0x8F25 (withRegs [(15, 0x05), (2, 0x02)]) (·.reg 15) = some 0x01 ∧
    run1 0x81F5 (withRegs [(15, 0x01)]) resultAndFlag = some (0xFF, 0x00) := by decide

/-- T-ALU-14, T-ALU-15, T-ALU-34. -/
theorem test_shr : run1 0x8126 (operands 0xFF 0x33) resultAndFlag = some (0x7F, 0x01) ∧
    run1 0x8126 (operands 0x80 0x33) resultAndFlag = some (0x40, 0x00) ∧
    run1 0x8F26 (withRegs [(15, 0x03)]) (·.reg 15) = some 0x01 := by decide

/-- T-ALU-9, T-ALU-10, T-ALU-11. -/
theorem test_subn : run1 0x8127 (operands 0x05 0x05) resultAndFlag = some (0x00, 0x01) ∧
    run1 0x8127 (operands 0x01 0x00) resultAndFlag = some (0xFF, 0x00) ∧
    run1 0x8127 (operands 0x10 0x20) resultAndFlag = some (0x10, 0x01) := by decide

/-- T-ALU-33. -/
theorem test_subn_vf : run1 0x8F27 (withRegs [(15, 0x05), (2, 0x02)]) (·.reg 15) = some 0x00 := by decide

/-- T-ALU-17, T-ALU-18, T-ALU-34. -/
theorem test_shl : run1 0x812E (operands 0xFF 0x33) resultAndFlag = some (0xFE, 0x01) ∧
    run1 0x812E (operands 0x7F 0x33) resultAndFlag = some (0xFE, 0x00) ∧
    run1 0x8F2E (withRegs [(15, 0x81)]) (·.reg 15) = some 0x01 := by decide

/-- T-ALU-42, with `0xA7` on `rnd_in`. -/
theorem test_rnd : seen (rndWith 0xA7 1 0x0F (operands 0 0)) resultAndFlag = some (0x07, 0x77) ∧
    seen (rndWith 0xA7 1 0xF0 (operands 0 0)) resultAndFlag = some (0xA0, 0x77) := by decide

/-- T-ALU-41: whatever byte is drawn. -/
theorem test_rnd_mask_zero : ∀ r : Byte, seen (rndWith r 1 0x00 (operands 0xEE 0)) resultAndFlag = some (0x00, 0x77) := by
  intro r
  simp [rndWith, seen, resultAndFlag, operands, withRegs, State.reg_setReg]

/-! ### Index and memory -/

/-- T-MEM-1. -/
theorem test_ldI : run1 0xAFFF State.reset (·.i) = some 0x0FFF := by decide

/-- T-MEM-2, T-MEM-3. -/
theorem test_addI : run1 0xF11E { operands 0x01 0 with i := 0x0FFF } (fun t => (t.i, t.reg 15)) = some (0x1000, 0x77) ∧
    run1 0xF11E { operands 0xFF 0 with i := 0xFF80 } (·.i) = some 0x007F := by decide

/-- T-MEM-4. -/
theorem test_ldF : run1 0xF129 (operands 0x0F 0) (·.i) = some 0x004B ∧
    run1 0xF129 (operands 0xFF 0) (·.i) = some 0x04FB := by decide

/-- T-MEM-5, T-MEM-6: 156 at `0x300`, 123 at the end of memory. -/
theorem test_ldB : run1 0xF133 { operands 156 0 with i := 0x0300 } (fun t => (t.mem.readBytes 0x300 3, t.i)) =
      some ([1, 5, 6], 0x0300) ∧
    run1 0xF133 { operands 123 0 with i := 0x0FFD } (·.mem.readBytes 0xFFD 3) = some [1, 2, 3] := by decide

/-- T-MEM-7. -/
theorem test_ldB_out_of_range : run1 0xF133 { operands 255 0 with i := 0x0FFE }
    (fun t => (t.fault, t.mem.read 0xFFE, t.mem.read 0xFFF, t.pc)) =
      some (some ⟨.memOutOfRange, 0x1000⟩, 0, 0, 0x0200) := by decide

/-- T-MEM-8. -/
theorem test_stRegs : run1 0xF255 { withRegs [(0, 0x11), (1, 0x22), (2, 0x33), (3, 0x44)] with i := 0x0400 }
    (fun t => (t.mem.readBytes 0x400 4, t.i)) = some ([0x11, 0x22, 0x33, 0x00], 0x0400) := by decide

/-- T-MEM-10. -/
theorem test_stRegs_out_of_range : run1 0xFF55 { operands 1 2 with i := 0x0FF1 }
    (fun t => (t.fault, t.mem.read 0xFF2)) = some (some ⟨.memOutOfRange, 0x1000⟩, 0) := by decide

/-- T-MEM-13. -/
theorem test_ldRegs : run1 0xFF65 State.reset (·.v.toList) =
    some [0xF0, 0x90, 0x90, 0x90, 0xF0, 0x20, 0x60, 0x20, 0x20, 0x70, 0xF0, 0x10, 0xF0, 0x80, 0xF0, 0xF0] := by decide

/-- T-MEM-12. -/
theorem test_ldRegs_out_of_range : run1 0xF165 { State.reset with i := 0x0FFF } (fun t => (t.fault, t.reg 0)) =
    some (some ⟨.memOutOfRange, 0x1000⟩, 0) := by decide

/-! ### Display -/

/-- T-DRW-12. -/
theorem test_cls : run1 0x00E0 { operands 0 0 with fb := Vector.replicate 32 1 }
    (fun t => (t.fb, t.drawReq, t.reg 15)) = some (Vector.replicate 32 0, true, 0x77) := by decide

/-- T-DRW-4: clipped at the right and at the bottom. -/
theorem test_drw_clips : run1 0xD125 (withRegs [(1, 0x3E), (2, 0x1E)])
    (fun t => (t.fb, t.reg 15, t.drawReq, t.pc)) =
      some (((Framebuffer.blank.toggle 62 30).toggle 63 30).toggle 62 31, 0, true, 0x0202) := by decide

/-- T-DRW-11 and T-DRW-10: a collision, and none. -/
theorem test_drw_collides :
    run1 0xD011 { State.reset with i := 0x0300, mem := [(0x300, 0x01)], fb := Framebuffer.blank.toggle 7 0 }
      (fun t => (t.fb, t.reg 15)) = some (Framebuffer.blank, 1) ∧
    run1 0xD011 { State.reset with i := 0x0300, mem := [(0x300, 0x80)], fb := Framebuffer.blank.toggle 7 0 }
      (fun t => (t.fb, t.reg 15)) = some ((Framebuffer.blank.toggle 0 0).toggle 7 0, 0) := by decide

/-! ### Keys and timers -/

/-- T-KEY-1, T-KEY-2. -/
theorem test_skp : run1 0xE19E (withKeys [10] (operands 0x0A 0)) (·.pc) = some 0x0204 ∧
    run1 0xE19E (withKeys [0, 1, 9, 11, 15] (operands 0x0A 0)) (·.pc) = some 0x0202 := by decide

/-- T-KEY-5. -/
theorem test_skp_no_key : run1 0xE19E (operands 0x10 0) (fun t => (t.fault, t.pc)) =
    some (some ⟨.keyIndexOutOfRange, 0x10⟩, 0x0200) := by decide

/-- T-KEY-3, T-KEY-4. -/
theorem test_sknp : run1 0xE1A1 (operands 0x0A 0) (·.pc) = some 0x0204 ∧
    run1 0xE1A1 (withKeys [10] (operands 0x0A 0)) (·.pc) = some 0x0202 := by decide

/-- T-KEY-6. -/
theorem test_sknp_no_key : run1 0xE1A1 (operands 0xFF 0) (fun t => (t.fault, t.pc)) =
    some (some ⟨.keyIndexOutOfRange, 0xFF⟩, 0x0200) := by decide

/-- T-KEY-8, T-KEY-10. -/
theorem test_ldVxK : run1 0xF50A (withKeys [3, 9] State.reset) (fun t => (t.reg 5, t.pc)) = some (0x03, 0x0202) ∧
    run1 0xFF0A (withKeys [0] (operands 0 0)) (fun t => (t.reg 15, t.pc)) = some (0x00, 0x0202) := by decide

/-- T-KEY-7. -/
theorem test_ldVxK_waits : run1 0xF50A State.reset (fun t => (t.reg 5, t.pc, t.drawReq, t.fault)) =
    some (0x00, 0x0200, false, none) := by decide

/-- T-TMR-4: `ST` unchanged. -/
theorem test_ldDtVx : run1 0xF215 { operands 0 0x3C with st := 7 } (fun t => (t.dt, t.st)) = some (0x3C, 7) := by decide

/-- T-TMR-5: `DT` unchanged. -/
theorem test_ldStVx : run1 0xF218 { operands 0 0x3C with dt := 7 } (fun t => (t.dt, t.st)) = some (7, 0x3C) := by decide

/-- T-TMR-6, T-TMR-10. -/
theorem test_ldVxDt : run1 0xF207 { operands 0 0 with dt := 0x2A, st := 7 } (fun t => (t.reg 2, t.dt)) =
      some (0x2A, 0x2A) ∧
    run1 0xFF07 { operands 0 0 with dt := 4 } (·.reg 15) = some 4 := by decide

/-- T-TMR-1, T-TMR-2. -/
theorem test_tick :
    ((tick { State.reset with dt := 2, st := 1 }).dt, (tick { State.reset with dt := 2, st := 1 }).st) = (1, 0) ∧
    ((tick State.reset).dt, (tick State.reset).st) = (0, 0) := by decide

/-! ### Witnesses: for each statement with hypotheses, a state and operands that meet them -/

/-- Halted by a return from the empty stack: it meets the invariant. -/
def halted : State := { State.reset with fault := some ⟨.stackUnderflow, 0x200⟩ }

/-- At the largest `pc`, with a full stack, running. -/
def atTheLimits : State := { State.reset with pc := 0x10FE, sp := 15, stack := Vector.replicate 16 0x0FFE }

/-- With a jump to itself at the entry point. -/
def finished : State := State.reset.withFetchWord 16 0x1200

/-- With `I` at this address. -/
def indexAt (a : Word) : State := { operands 16 15 with i := a }

/-- One event of each running kind. -/
def someEvents : List Event := [.step, .tick, .keys (Vector.replicate 16 true), .step]

theorem witness_DecodeOfEncode : (Instr.drw 15 15 15).wellFormed = true ∧ Instr.ret.wellFormed = true := by decide

theorem witness_EncodeOfDecode :
    decodeWord 0x5127#16 = .ok (.seReg 1 2) ∧ decodeWord 0xFF65#16 = .ok (.ldRegs 15) := by decide

theorem witness_DecodeFollowsOpcodeTable :
    (⟨"SHL", 0x800E, 0xF00F⟩ ∈ opcodeTable ∧ OpcodeRow.covers ⟨"SHL", 0x800E, 0xF00F⟩ 0x8FFE#16 = true) ∧
    ∀ r ∈ opcodeTable, r.covers 0x8128#16 = false := by decide

theorem witness_FetchIsBigEndian :
    let s := ({ State.reset with pc := 0x0FFE } : State).withFetchWord 16 0x6A11
    0xFFE = s.pc.toNat ∧ s.fault = none ∧
      decodeWord (BitVec.ofNat 16 ((s.mem.read 0xFFE).toNat * 256 + (s.mem.read 0xFFF).toNat)) = .ok (.ldImm 10 0x11) := by
  decide

theorem witness_StepRunsDecodedInstruction :
    let s := ({ State.reset with pc := 0x0FFE } : State).withFetchWord 16 0x6A11
    s.fault = none ∧ s.pc.toNat ≤ 0xFFE ∧
      decode (s.mem.read s.pc.toNat :: s.mem.read (s.pc.toNat + 1) :: []) = .ok (.ldImm 10 0x11, []) := by decide

theorem witness_UnmatchedWordHangs :
    State.reset.fault = none ∧ State.reset.pc.toNat ≤ 0xFFE ∧
    decodeWord (State.reset.wordAt State.reset.pc.toNat) = .error (.unmatched 0) ∧
    ∀ ev ∈ someEvents, ev.running = true := by decide

theorem witness_FetchOutOfRangeFaults :
    ({ State.reset with pc := 0x0FFF } : State).fault = none ∧ 0xFFE < ({ State.reset with pc := 0x0FFF } : State).pc.toNat := by
  decide

theorem witness_HaltedUntilReset :
    halted.fault = some ⟨.stackUnderflow, 0x200⟩ ∧ ∀ ev ∈ someEvents, ev.running = true := by decide

theorem witness_FaultsArePrecise :
    ∃ t, step (State.reset.withFetchWord 16 0x00EE) = .next t ∧ t.fault ≠ (State.reset.withFetchWord 16 0x00EE).fault :=
  ⟨_, rfl, by decide⟩

theorem witness_ProgramLoad :
    (List.replicate 3584 (0x12 : Byte)).length ≤ 3584 ∧ 3584 < (List.replicate 3585 (0x12 : Byte)).length ∧
    (0x1FF < 0x200 ∧ 0x200 + 3584 ≤ 0x1000) :=
  ⟨by rw [List.length_replicate], by rw [List.length_replicate]; decide, by decide⟩

theorem witness_ExecutionBeginsAtRomBase :
    ∃ t, runEvents (.reset :: [((0x200 : Addr12), (0x12 : Byte))].map (fun l => .loadByte l.1 l.2)) halted = .next t ∧
      decodeWord (t.wordAt 0x200) = .ok (.jp 0x200) :=
  ⟨_, rfl, by decide⟩

theorem witness_LoadPortClosesAtFirstStep : ∀ ev ∈ someEvents, ev.running = true := by decide

theorem witness_HostWritesTouchOnlyTheirTarget : (0xFFE : Nat) ≠ (0xFFF : Addr12).toNat := by decide

theorem witness_invariant_halted : Inv halted :=
  ⟨by decide, by decide, by decide, by decide, by unfold latchTrue halted; decide⟩

theorem witness_invariant_at_the_limits : Inv atTheLimits :=
  ⟨by decide, by decide, by decide, by decide, trivial⟩

theorem witness_StepKeepsInvariant : Inv atTheLimits ∧ ∃ t, step atTheLimits = .next t :=
  ⟨witness_invariant_at_the_limits, _, rfl⟩

theorem witness_frames :
    (∃ t, exec (.addReg 15 2) (operands 1 2) = .next t ∧ t.fault = none) ∧ (Instr.addReg 15 2).writesFlag = true ∧
    (Instr.addReg 15 2).writesReg 14 = false ∧ (∃ t, exec (.ldB 1) (indexAt 0x300) = .next t) ∧
    (0x2FF < baseAddress (indexAt 0x300) ∧ baseAddress (indexAt 0x300) + (Instr.ldB 1).bytesStored ≤ 0x303) ∧
    (Instr.cls).bytesStored = 0 :=
  ⟨⟨_, rfl, rfl⟩, by decide, by decide, ⟨_, rfl⟩, by decide, by decide⟩

theorem witness_DrawRequestExactlyForDisplay :
    (State.reset.withFetchWord 16 0x00E0).fault = none ∧ ∃ t, step (State.reset.withFetchWord 16 0x00E0) = .next t :=
  ⟨rfl, _, rfl⟩

theorem witness_SoundTimerNeverObserved : ∃ t, step (State.reset.withFetchWord 16 0xF218) = .next t :=
  ⟨_, rfl⟩

theorem witness_JumpSetsPc :
    State.reset.pc = (0x200 : Addr12).setWidth 16 ∧ (0xFFF : Addr12) = 0xFFF ∧ State.reset.fault = none := by decide

theorem witness_CallPushesAndJumps : ({ State.reset with sp := 14 } : State).sp.toNat < 15 := by decide

theorem witness_ReturnPops :
    (({ State.reset with sp := 15 } : State).sp.toNat = (15 : Fin 16).val ∧ 0 < (15 : Fin 16).val) ∧
    ({ State.reset with sp := 1 } : State).sp.toNat = (1 : Fin 16).val ∧ 0 < (1 : Fin 16).val := by decide

theorem witness_StackFaults :
    ({ State.reset with sp := 15 } : State).sp.toNat = 15 ∧ State.reset.sp.toNat = 0 ∧
    15 < ({ State.reset with sp := 16 } : State).sp.toNat := by decide

theorem witness_CallThenReturn : ({ State.reset with sp := 0 } : State).sp.toNat < 15 := by decide

theorem witness_SkipsOnImmediate :
    (operands 0xAB 0).reg 1 = 0xAB ∧ (operands 0xAC 0).reg 1 ≠ 0xAB ∧
    (({ State.reset with pc := 0x0FFE } : State).pc = 0xFFE ∧ ({ State.reset with pc := 0x0FFE } : State).fault = none) := by
  decide

theorem witness_SkipsOnRegisters :
    (operands 7 7).reg 1 = (operands 7 7).reg 2 ∧ (operands 7 8).reg 1 ≠ (operands 7 8).reg 2 := by decide

/-- For AddImmediateNoFlag, AddWithCarry, Subtractions, Shifts, RandomUnderMask: the registers that stay. -/
theorem witness_other_registers : (1 : Reg) ≠ 15 ∧ (3 : Reg) ≠ 1 ∧ (3 : Reg) ≠ 15 ∧ (0xFF : Byte) = 0xFF := by decide

theorem witness_GlyphAddressFindsGlyph :
    (∀ a < 80, (withRegs [(1, 15)]).mem.read a = State.reset.mem.read a) ∧
    ((withRegs [(1, 15)]).reg 1).toNat = 15 ∧ 15 < 16 := by decide

theorem witness_StoreDecimalDigits : (indexAt 0x0FFD).i.toNat + 2 ≤ 0xFFF := by decide

/-- For StoreRegisters, LoadRegisters, StoreThenLoadRestoresRegisters. -/
theorem witness_register_transfers :
    (indexAt 0x0FF0).i.toNat + (15 : Reg).val ≤ 0xFFF ∧ (indexAt 0x0FFF).i.toNat + (0 : Reg).val ≤ 0xFFF := by decide

theorem witness_MemoryRangeFaults :
    (indexAt 0x0FFE).i.toNat + 2 > 0xFFF ∧ (indexAt 0x0FF1).i.toNat + (15 : Reg).val > 0xFFF ∧
    ¬ SpriteInMemory (indexAt 0x0FFF) (((indexAt 0x0FFF).reg 2).toNat % 32) 2 := by
  refine ⟨by decide, by decide, ?_⟩
  unfold SpriteInMemory
  decide

theorem witness_StoresSeenByNextFetch :
    let s := { withRegs [(0, 0x6A), (1, 0x55)] with i := 0x0202 }
    s.i.toNat + (1 : Reg).val ≤ 0xFFF ∧ s.fault = none ∧ (1 : Reg).val = (0 : Reg).val + 1 ∧ (1 : Reg) ≤ 1 ∧
      (∃ t, exec (.stRegs 1) s = .next t) ∧ decodeWord (wordOfBytes (s.reg 0) (s.reg 1)) = .ok (.ldImm 10 0x55) :=
  ⟨by decide, by decide, by decide, by decide, ⟨_, rfl⟩, by decide⟩

/-- One row at the last address, no row at all, and fifteen rows of which one is drawn (T-DRW-6). -/
theorem witness_DrawSprite :
    15 = ((indexAt 0x0FFF).reg 2).toNat % 64 ∧ 16 = ((indexAt 0x0FFF).reg 1).toNat % 32 ∧
    SpriteInMemory (indexAt 0x0FFF) 16 1 ∧ SpriteInMemory (indexAt 0xFFFF) 16 0 ∧ SpriteInMemory (indexAt 0x0FFF) 31 15 := by
  unfold SpriteInMemory
  decide

theorem witness_DrawTwiceRestores :
    0 = (State.reset.reg 0).toNat % 64 ∧ 0 = (State.reset.reg 1).toNat % 32 ∧ SpriteInMemory State.reset 0 5 ∧
    ∃ t, exec (.drw 0 1 5) State.reset = .next t ∧ t.reg 0 = State.reset.reg 0 ∧ t.reg 1 = State.reset.reg 1 :=
  ⟨by decide, by decide, by unfold SpriteInMemory; decide, _, rfl, by decide, by decide⟩

theorem witness_KeySkips :
    ((operands 15 16).reg 1).toNat = (15 : Fin 16).val ∧ 15 < ((operands 15 16).reg 2).toNat := by decide

theorem witness_WaitForKey :
    ((withKeys [15] State.reset).key[(15 : Fin 16)] = true ∧
      ∀ j : Fin 16, j < 15 → (withKeys [15] State.reset).key[j] = false) ∧
    ∀ k : Fin 16, State.reset.key[k] = false := by decide

theorem witness_JumpToSelfIsFinished :
    finished.fault = none ∧ finished.pc.toNat ≤ 0xFFE ∧
    decodeWord (finished.wordAt finished.pc.toNat) = .ok (.jp 0x200) ∧ finished.pc.toNat = (0x200 : Addr12).toNat ∧
    ∀ ev ∈ someEvents, ev.running = true := by decide

end Sys2Proof.Tests
end

section
/-! SUPPORT. A word from its two bytes: its number and its fields, each from the byte it lies in (20_memory.md R25). -/

namespace Sys2Proof

theorem toNat_wordOfBytes (hi lo : Byte) : (wordOfBytes hi lo).toNat = hi.toNat * 256 + lo.toNat := by
  rw [wordOfBytes, BitVec.toNat_append, ← Nat.shiftLeft_add_eq_or_of_lt lo.isLt, Nat.shiftLeft_eq]

theorem fieldF_wordOfBytes (hi lo : Byte) : fieldF (wordOfBytes hi lo) = hi.extractLsb' 4 4 :=
  extract_append_high hi lo 4 4

theorem fieldX_wordOfBytes (hi lo : Byte) : fieldX (wordOfBytes hi lo) = (hi.extractLsb' 0 4).toFin :=
  congrArg BitVec.toFin (extract_append_high hi lo 0 4)

theorem fieldY_wordOfBytes (hi lo : Byte) : fieldY (wordOfBytes hi lo) = (lo.extractLsb' 4 4).toFin :=
  congrArg BitVec.toFin (extract_append_low hi lo 4 4 (by omega))

theorem fieldN_wordOfBytes (hi lo : Byte) : fieldN (wordOfBytes hi lo) = lo.extractLsb' 0 4 :=
  extract_append_low hi lo 0 4 (by omega)

theorem fieldNN_wordOfBytes (hi lo : Byte) : fieldNN (wordOfBytes hi lo) = lo :=
  lowByte_wordOfBytes hi lo

theorem toNat_highNibble (b : Byte) : (b.extractLsb' 4 4).toNat = b.toNat / 16 := by
  rw [BitVec.extractLsb'_toNat, Nat.shiftRight_eq_div_pow]
  have := b.isLt
  omega

theorem toNat_lowNibble (b : Byte) : (b.extractLsb' 0 4).toNat = b.toNat % 16 := by
  rw [BitVec.extractLsb'_toNat, Nat.shiftRight_zero]

end Sys2Proof
end

section
/-! SUPPORT. The step of a running core whose fetched word decodes (30_encoding.md R39). -/

namespace Sys2Proof.Machine

theorem withFetched_of_le {s : State} (hpc : s.pc.toNat ≤ 0xFFE) (go : Word → Result) :
    withFetched s go = go (s.wordAt s.pc.toNat) :=
  if_neg (Nat.not_lt.mpr hpc)

theorem step_of_decodeWord {s : State} {i : Instr} (hrun : s.fault = none) (hpc : s.pc.toNat ≤ 0xFFE)
    (hdec : decodeWord (s.wordAt s.pc.toNat) = .ok i) : step s = exec i (s.setDrawReq false) := by
  simp only [step, hrun, withFetched_of_le hpc, hdec]

end Sys2Proof.Machine
end

section
/-! PROOFS. The statements of 20_memory.md. -/

namespace Sys2Proof.Machine

theorem State.toNat_wordAt (s : State) (a : Nat) :
    (s.wordAt a).toNat = (s.mem.read a).toNat * 256 + (s.mem.read (a + 1)).toNat :=
  toNat_wordOfBytes _ _

/-- Settles O6. Every field lies within one byte of the concatenation, and the word is the only one with its number, so
what that number decodes to is what the step executes. -/
theorem fetchIsBigEndian : Obligations.FetchIsBigEndian := by
  intro s a
  refine ⟨s.toNat_wordAt a, ?family, ?x, ?y, ?n, fieldNN_wordOfBytes _ _, ?executed⟩
  case family => rw [State.wordAt, fieldF_wordOfBytes, toNat_highNibble]
  case x => exact (congrArg Fin.val (fieldX_wordOfBytes _ _)).trans (toNat_lowNibble _)
  case y => exact (congrArg Fin.val (fieldY_wordOfBytes _ _)).trans (toNat_highNibble _)
  case n => rw [State.wordAt, fieldN_wordOfBytes, toNat_lowNibble]
  case executed =>
    intro ha hle hrun i hdec
    subst ha
    rw [← s.toNat_wordAt, BitVec.ofNat_toNat, BitVec.setWidth_eq] at hdec
    exact step_of_decodeWord hrun hle hdec

end Sys2Proof.Machine
end

section
/-! SUPPORT. The words of format `XI` in families 6 and 7, and writing a register before the ordinary advance. -/

namespace Sys2Proof

theorem decodeWord_encodeXI_ldImm (x : Reg) (nn : Byte) : decodeWord (encodeXI 0x6#4 x nn) = .ok (.ldImm x nn) := by
  simp only [decodeWord, fieldF_encodeXI, fieldX_encodeXI, fieldNN_encodeXI]

theorem decodeWord_encodeXI_addImm (x : Reg) (nn : Byte) : decodeWord (encodeXI 0x7#4 x nn) = .ok (.addImm x nn) := by
  simp only [decodeWord, fieldF_encodeXI, fieldX_encodeXI, fieldNN_encodeXI]

end Sys2Proof

namespace Sys2Proof.Machine

theorem toNat_trunc8 (n : Nat) : (trunc8 n).toNat = n % 256 :=
  BitVec.toNat_ofNat n 8

/-- Writing a register and advancing changes the register file and `pc` only. -/
theorem State.advance_setReg (s : State) (r : Reg) (b : Byte) :
    (s.setReg r b).advance = { s with v := s.v.set r b, pc := s.pc + 2 } := rfl

theorem exec_ldImm (x : Reg) (nn : Byte) (s : State) : exec (.ldImm x nn) s = .next (s.setReg x nn).advance := rfl

theorem exec_addImm (x : Reg) (nn : Byte) (s : State) :
    exec (.addImm x nn) s = .next (s.setReg x (trunc8 ((s.reg x).toNat + nn.toNat))).advance := rfl

end Sys2Proof.Machine
end

section
/-! PROOFS. The statements of 41_alu.md: register load and addition of an immediate byte. -/

namespace Sys2Proof.Machine

/-- Settles O36. The load is one register write and the advance; nothing in it asks whether `x` is `F`. -/
theorem loadImmediate : Obligations.LoadImmediate := by
  intro x nn s
  refine ⟨decodeWord_encodeXI_ldImm x nn, ?executed⟩
  case executed => rw [exec_ldImm, State.advance_setReg]

/-- Settles O37. The addition is one register write of the truncated sum, so a carry has nowhere to go. -/
theorem addImmediateNoFlag : Obligations.AddImmediateNoFlag := by
  intro x nn s
  refine ⟨decodeWord_encodeXI_addImm x nn, _, exec_addImm x nn s, ?sum, ?others, ?frame⟩
  case sum => rw [State.reg_advance, State.reg_setReg_self, toNat_trunc8]
  case others =>
    intro r hr
    rw [State.reg_advance, State.reg_setReg_other s _ hr]
  case frame => rw [State.advance_setReg]

end Sys2Proof.Machine
end

section
/-! SUPPORT. The word of `Annn`, the address an `Addr12` names, and writing `I` before the ordinary advance. -/

namespace Sys2Proof

theorem decodeWord_encodeA_ldI (nnn : Addr12) : decodeWord (encodeA 0xA#4 nnn) = .ok (.ldI nnn) := by
  simp only [decodeWord, fieldF_encodeA, fieldNNN_encodeA]

end Sys2Proof

namespace Sys2Proof.Machine

theorem toNat_addressOf (nnn : Addr12) : (addressOf nnn).toNat = nnn.toNat :=
  BitVec.toNat_setWidth_of_le (by decide)

theorem toNat_addressOf_le (nnn : Addr12) : (addressOf nnn).toNat ≤ 0x0FFF := by
  rw [toNat_addressOf]
  exact Nat.le_of_lt_succ nnn.isLt

/-- Writing `I` and advancing changes `I` and `pc` only. -/
theorem State.advance_setI (s : State) (w : Word) : (s.setI w).advance = { s with i := w, pc := s.pc + 2 } := rfl

theorem exec_ldI (nnn : Addr12) (s : State) : exec (.ldI nnn) s = .next (s.setI (addressOf nnn)).advance := rfl

end Sys2Proof.Machine
end

section
/-! PROOFS. The statements of 42_index_memory.md: the index load. -/

namespace Sys2Proof.Machine

/-- Settles O43. The load is one write of `I` and the advance; the twelve bits are widened with zeros, so what `I` holds is
the address itself. -/
theorem loadIndex : Obligations.LoadIndex := by
  intro nnn s
  refine ⟨decodeWord_encodeA_ldI nnn, _, exec_ldI nnn s, ?index, ?bound, ?frame⟩
  case index => rw [State.i_advance, State.i_setI, toNat_addressOf]
  case bound =>
    rw [State.i_advance, State.i_setI]
    exact toNat_addressOf_le nnn
  case frame => rw [State.advance_setI]

end Sys2Proof.Machine
end

section
/-! SUPPORT. The word `00E0`, the cells of a blank framebuffer, and writing the framebuffer before `draw_req` and the
ordinary advance, as both display instructions do. -/

namespace Sys2Proof

theorem decodeWord_cls : decodeWord 0x00E0#16 = .ok .cls := by decide

end Sys2Proof

namespace Sys2Proof.Machine

@[simp] theorem Framebuffer.cell_blank (j : Nat) : Framebuffer.blank.cell j = false :=
  Framebuffer.pixel_blank (j % 64) (j / 64)

/-- Writing the framebuffer, setting `draw_req` and advancing changes `fb`, `drawReq` and `pc` only. -/
theorem State.advance_setDrawReq_setFb (s : State) (fb : Framebuffer) (b : Bool) :
    ((s.setFb fb).setDrawReq b).advance = { s with fb := fb, drawReq := b, pc := s.pc + 2 } := rfl

theorem exec_cls (s : State) : exec .cls s = .next ((s.setFb Framebuffer.blank).setDrawReq true).advance := rfl

end Sys2Proof.Machine
end

section
/-! PROOFS. The statements of 43_display.md: clearing the screen. -/

namespace Sys2Proof.Machine

/-- Settles O52. The framebuffer written is the blank one and `draw_req` is written true, neither looking at the old
framebuffer, so an already blank screen is no special case. -/
theorem clearScreen : Obligations.ClearScreen := by
  intro s
  refine ⟨decodeWord_cls, _, exec_cls s, ?cells, ?frame⟩
  case cells =>
    intro j _
    rw [State.fb_advance, State.fb_setDrawReq, State.fb_setFb, Framebuffer.cell_blank]
  case frame => rw [State.advance_setDrawReq_setFb]

end Sys2Proof.Machine
end

section
/-! SUPPORT. The tick as an event: each timer after it, and what it leaves unchanged. -/

namespace Sys2Proof.Machine

theorem applyEvent_tick (s : State) : applyEvent .tick s = .next (tick s) := rfl

@[simp] theorem State.dt_tick (s : State) : (tick s).dt = countDown s.dt := rfl

@[simp] theorem State.st_tick (s : State) : (tick s).st = countDown s.st := rfl

/-- A tick changes `dt` and `st` only. -/
theorem State.tick_frame (s : State) : tick s = { s with dt := (tick s).dt, st := (tick s).st } := rfl

end Sys2Proof.Machine
end

section
/-! PROOFS. The statements of 60_exceptions.md: the tick. -/

namespace Sys2Proof.Machine

/-- Settles O58. The tick is two timer writes that do not look at the fault latch or at `pc`, so a waiting or halted core is
no special case; the floor at 0 is that of `countDown`. -/
theorem tickCountsDown : Obligations.TickCountsDown := by
  intro s
  refine ⟨tick s, applyEvent_tick s, ?delay, ?sound, State.tick_frame s⟩
  case delay => rw [State.dt_tick, toNat_countDown]
  case sound => rw [State.st_tick, toNat_countDown]

end Sys2Proof.Machine
end

section
/-! SUPPORT. A reset and the loads after it: the core is running and at the reset entry point. -/

namespace Sys2Proof.Machine

theorem applyEvent_reset (s : State) : applyEvent .reset s = .next (hostReset s) := rfl

theorem applyEvent_loadByte (a : Addr12) (b : Byte) (s : State) :
    applyEvent (.loadByte a b) s = .next (hostLoad a b s) := rfl

@[simp] theorem State.pc_hostReset (s : State) : (hostReset s).pc = 0x0200 := rfl

@[simp] theorem State.fault_hostReset (s : State) : (hostReset s).fault = none := rfl

@[simp] theorem State.pc_hostLoad (a : Addr12) (b : Byte) (s : State) : (hostLoad a b s).pc = s.pc := rfl

@[simp] theorem State.fault_hostLoad (a : Addr12) (b : Byte) (s : State) : (hostLoad a b s).fault = s.fault := rfl

/-- The core is not halted and its next instruction is the one at the reset entry point `0x0200`. -/
def State.AtEntry (s : State) : Prop := s.pc = 0x0200 ∧ s.fault = none

theorem State.atEntry_hostReset (s : State) : (hostReset s).AtEntry := ⟨s.pc_hostReset, s.fault_hostReset⟩

theorem State.AtEntry.hostLoad {s : State} (hs : s.AtEntry) (a : Addr12) (b : Byte) : (hostLoad a b s).AtEntry :=
  ⟨(s.pc_hostLoad a b).trans hs.1, (s.fault_hostLoad a b).trans hs.2⟩

/-- Writes through the load port, whatever they write and however many, leave the core at the entry point. -/
theorem State.AtEntry.runEvents_loads {s : State} (hs : s.AtEntry) (loads : List (Addr12 × Byte)) :
    ∃ t, runEvents (loads.map fun l => .loadByte l.1 l.2) s = .next t ∧ t.AtEntry := by
  refine runEvents_keeps ?_ hs
  intro e he s hs
  obtain ⟨l, -, rfl⟩ := List.mem_map.mp he
  exact ⟨_, applyEvent_loadByte l.1 l.2 s, hs.hostLoad l.1 l.2⟩

/-- At the entry point the step executes what the word at `0x0200` decodes to. -/
theorem State.AtEntry.step_of_decodeWord {s : State} {i : Instr} (hs : s.AtEntry)
    (hdec : decodeWord (s.wordAt 0x200) = .ok i) : step s = exec i (s.setDrawReq false) := by
  obtain ⟨hpc, hrun⟩ := hs
  have hnat : s.pc.toNat = 0x200 := congrArg BitVec.toNat hpc
  refine Machine.step_of_decodeWord hrun ?inMemory ?decodes
  case inMemory => rw [hnat]; decide
  case decodes => rw [hnat]; exact hdec

end Sys2Proof.Machine
end

section
/-! PROOFS. The statements of 70_reset_and_hazards.md: the first step after reset. -/

namespace Sys2Proof.Machine

/-- Settles O13. A reset puts the core at the entry point and clears the fault latch; the load port writes memory only, so
the core is still there, and running, when it fetches. -/
theorem executionBeginsAtRomBase : Obligations.ExecutionBeginsAtRomBase := by
  intro s loads
  obtain ⟨t, hrun, hentry⟩ := s.atEntry_hostReset.runEvents_loads loads
  refine ⟨t, ?run, hentry.1, fun _ hdec => hentry.step_of_decodeWord hdec⟩
  case run => rw [runEvents_cons_of_next (applyEvent_reset s), hrun]

end Sys2Proof.Machine
end

section
/-! SUPPORT. Decoding an encoded instruction, and what a decoded word encodes to, for the whole table of 30_encoding.md
section 4. -/

namespace Sys2Proof

/-! ### From an instruction to its word and back -/

/-- The last arm of the decoder is family F. -/
theorem decodeWord_of_familyF {w : Word} (hF : fieldF w = 0xF#4) : decodeWord w = decodeFamilyF w := by
  unfold decodeWord
  rw [hF]
  rfl

/-- The row count of a well-formed `Dxyn` is the number of its four-bit field. -/
theorem toNat_rowCountField {n : Nat} (h : rowCountFits n = true) : (BitVec.ofNat 4 n).toNat = n := by
  have hn : n ≤ 15 := by simpa [rowCountFits] using h
  rw [BitVec.toNat_ofNat]
  omega

/-- The fields of an encoded word are the operands, and the decoder reads only fields: one case for each format. -/
theorem decodeWord_encode {i : Instr} (h : i.wellFormed = true) : decodeWord (encode i) = .ok i := by
  cases i with
  | cls | ret => rfl
  | jp | call | ldI | jpV0 => simp only [encode, decodeWord, fieldF_encodeA, fieldNNN_encodeA]
  | seImm | sneImm | ldImm | addImm | rnd =>
    simp only [encode, decodeWord, fieldF_encodeXI, fieldX_encodeXI, fieldNN_encodeXI]
  | seReg | sneReg => simp only [encode, decodeWord, fieldF_encodeXYN, fieldX_encodeXYN, fieldY_encodeXYN]
  | ldReg | or | and | xor | addReg | sub | shr | subn | shl =>
    simp only [encode, decodeWord, decodeFamily8, fieldF_encodeXYN, fieldX_encodeXYN, fieldY_encodeXYN,
      fieldN_encodeXYN]
  | drw x y n =>
    simp only [encode, decodeWord, fieldF_encodeXYN, fieldX_encodeXYN, fieldY_encodeXYN, fieldN_encodeXYN,
      toNat_rowCountField h]
  | skp | sknp => simp only [encode, decodeWord, decodeFamilyE, fieldF_encodeXI, fieldX_encodeXI, fieldNN_encodeXI]
  | ldVxDt | ldVxK | ldDtVx | ldStVx | addI | ldF | ldB | stRegs | ldRegs =>
    simp only [encode, decodeWord_of_familyF, decodeFamilyF, fieldF_encodeXI, fieldX_encodeXI, fieldNN_encodeXI]

/-! ### From a word to its instruction and back -/

/-- The one value of the family nibble that the arms of the other families leave. -/
theorem Nibble.eq_fifteen {f : Nibble} (h0 : f ≠ 0x0#4) (h1 : f ≠ 0x1#4) (h2 : f ≠ 0x2#4) (h3 : f ≠ 0x3#4)
    (h4 : f ≠ 0x4#4) (h5 : f ≠ 0x5#4) (h6 : f ≠ 0x6#4) (h7 : f ≠ 0x7#4) (h8 : f ≠ 0x8#4) (h9 : f ≠ 0x9#4)
    (hA : f ≠ 0xA#4) (hB : f ≠ 0xB#4) (hC : f ≠ 0xC#4) (hD : f ≠ 0xD#4) (hE : f ≠ 0xE#4) : f = 0xF#4 := by
  bv_omega

/-- Clearing the low nibble of an encoded word puts 0 into its field `n`. -/
theorem encodeXYN_and_FFF0 (f : Nibble) (x y : Reg) (n : Nibble) :
    encodeXYN f x y n &&& 0xFFF0#16 = encodeXYN f x y 0#4 := by
  have hmask : 0xFFF0#16 = BitVec.allOnes 4 ++ (BitVec.allOnes 4 ++ (BitVec.allOnes 4 ++ 0#4)) := by decide
  rw [encodeXYN, hmask, BitVec.and_append, BitVec.and_append, BitVec.and_append]
  simp only [BitVec.and_allOnes, BitVec.and_zero, encodeXYN]

theorem and_FFF0_of_fieldF {w : Word} {f : Nibble} (hF : fieldF w = f) :
    w &&& 0xFFF0#16 = encodeXYN f (fieldX w) (fieldY w) 0#4 := by
  rw [← hF, ← encodeXYN_and_FFF0 _ _ _ (fieldN w), encodeXYN_fields]

theorem encodeA_of_fieldF {w : Word} {f : Nibble} (hF : fieldF w = f) : encodeA f (fieldNNN w) = w := by
  rw [← hF, encodeA_fields]

theorem encodeXI_of_fieldF {w : Word} {f : Nibble} (hF : fieldF w = f) : encodeXI f (fieldX w) (fieldNN w) = w := by
  rw [← hF, encodeXI_fields]

theorem encodeXI_of_fields {w : Word} {f : Nibble} {nn : Byte} (hF : fieldF w = f) (hNN : fieldNN w = nn) :
    encodeXI f (fieldX w) nn = w := by
  rw [← hNN, encodeXI_of_fieldF hF]

theorem encodeXYN_of_fields {w : Word} {f n : Nibble} (hF : fieldF w = f) (hN : fieldN w = n) :
    encodeXYN f (fieldX w) (fieldY w) n = w := by
  rw [← hF, ← hN, encodeXYN_fields]

theorem encode_drw_of_fieldF {w : Word} (hF : fieldF w = 0xD#4) :
    encode (.drw (fieldX w) (fieldY w) (fieldN w).toNat) = w := by
  rw [encode, BitVec.ofNat_toNat, BitVec.setWidth_eq]
  exact encodeXYN_of_fields hF rfl

/-- The field `n`, as a number, is a row count that fits. -/
theorem rowCountFits_fieldN (w : Word) : rowCountFits (fieldN w).toNat = true :=
  decide_eq_true (Nat.le_of_lt_succ (fieldN w).isLt)

theorem decodeFamily0_ok {w : Word} {i : Instr} (h : decodeFamily0 w = .ok i) :
    i.wellFormed = true ∧ encode i = w := by
  unfold decodeFamily0 at h
  split at h
  case isTrue hw => cases h; exact ⟨rfl, hw.symm⟩
  case isFalse =>
    split at h
    case isTrue hw => cases h; exact ⟨rfl, hw.symm⟩
    case isFalse => cases h

theorem decodeFamily8_ok {w : Word} {i : Instr} (hF : fieldF w = 0x8#4) (h : decodeFamily8 w = .ok i) :
    i.wellFormed = true ∧ encode i = w := by
  unfold decodeFamily8 at h
  split at h <;> cases h <;> exact ⟨rfl, encodeXYN_of_fields hF ‹_›⟩

theorem decodeFamilyE_ok {w : Word} {i : Instr} (hF : fieldF w = 0xE#4) (h : decodeFamilyE w = .ok i) :
    i.wellFormed = true ∧ encode i = w := by
  unfold decodeFamilyE at h
  split at h <;> cases h <;> exact ⟨rfl, encodeXI_of_fields hF ‹_›⟩

theorem decodeFamilyF_ok {w : Word} {i : Instr} (hF : fieldF w = 0xF#4) (h : decodeFamilyF w = .ok i) :
    i.wellFormed = true ∧ encode i = w := by
  unfold decodeFamilyF at h
  split at h <;> cases h <;> exact ⟨rfl, encodeXI_of_fields hF ‹_›⟩

/-- The word that an instruction decoded from `w` encodes to: `w`, but for the nibble that families 5 and 9 do not
examine. -/
def canonicalWord (w : Word) : Word := if fieldF w = 0x5#4 ∨ fieldF w = 0x9#4 then w &&& 0xFFF0#16 else w

theorem canonicalWord_of_examined {w : Word} {f : Nibble} (hF : fieldF w = f) (h5 : f ≠ 0x5#4) (h9 : f ≠ 0x9#4) :
    canonicalWord w = w :=
  if_neg (hF ▸ not_or_intro h5 h9)

theorem canonicalWord_of_family5 {w : Word} (hF : fieldF w = 0x5#4) :
    canonicalWord w = encodeXYN 0x5#4 (fieldX w) (fieldY w) 0#4 :=
  (if_pos (.inl hF)).trans (and_FFF0_of_fieldF hF)

theorem canonicalWord_of_family9 {w : Word} (hF : fieldF w = 0x9#4) :
    canonicalWord w = encodeXYN 0x9#4 (fieldX w) (fieldY w) 0#4 :=
  (if_pos (.inr hF)).trans (and_FFF0_of_fieldF hF)

/-- One case for each value of the family nibble. -/
theorem decodeWord_ok {w : Word} {i : Instr} (h : decodeWord w = .ok i) :
    i.wellFormed = true ∧ encode i = canonicalWord w := by
  unfold decodeWord at h
  split at h
  case h_6 hF => cases h; exact ⟨rfl, (canonicalWord_of_family5 hF).symm⟩
  case h_10 hF => cases h; exact ⟨rfl, (canonicalWord_of_family9 hF).symm⟩
  case h_1 hF => rw [canonicalWord_of_examined hF (by decide) (by decide)]; exact decodeFamily0_ok h
  case h_9 hF => rw [canonicalWord_of_examined hF (by decide) (by decide)]; exact decodeFamily8_ok hF h
  case h_15 hF => rw [canonicalWord_of_examined hF (by decide) (by decide)]; exact decodeFamilyE_ok hF h
  case h_16 =>
    have hF : fieldF w = 0xF#4 := by apply Nibble.eq_fifteen <;> assumption
    rw [canonicalWord_of_examined hF (by decide) (by decide)]
    exact decodeFamilyF_ok hF h
  case h_14 hF =>
    cases h
    rw [canonicalWord_of_examined hF (by decide) (by decide)]
    exact ⟨rowCountFits_fieldN w, encode_drw_of_fieldF hF⟩
  case h_2 hF | h_3 hF | h_11 hF | h_12 hF =>
    cases h
    rw [canonicalWord_of_examined hF (by decide) (by decide)]
    exact ⟨rfl, encodeA_of_fieldF hF⟩
  case h_4 hF | h_5 hF | h_7 hF | h_8 hF | h_13 hF =>
    cases h
    rw [canonicalWord_of_examined hF (by decide) (by decide)]
    exact ⟨rfl, encodeXI_of_fieldF hF⟩

end Sys2Proof
end

section
/-! PROOFS. The statements of 30_encoding.md: the decoder and the encoder. -/

namespace Sys2Proof

/-- Settles O1. Decoding the two bytes is decoding their word, so the bytes that follow are never looked at. -/
theorem decodeOfEncode : Obligations.DecodeOfEncode := by
  intro i hi
  refine ⟨decodeWord_encode hi, fun rest => ?bytes⟩
  case bytes => rw [decode_wordBytes, decodeWord_encode hi]

/-- Settles O2. A word is put together again from its fields; in families 5 and 9 from all but the last. -/
theorem encodeOfDecode : Obligations.EncodeOfDecode := fun _ _ h => decodeWord_ok h

end Sys2Proof
end

section
/-! SUPPORT. The rows of the opcode table: what a row compares, for each of the four masks, and what a word that a row
covers decodes to. -/

namespace Sys2Proof

open Sys2Proof.Laws

/-! ### A word under a mask -/

theorem and_F000 (w : Word) : w &&& (0xF000 : Word) = encodeA (fieldF w) 0 := by
  conv_lhs => rw [← encodeA_fields w]
  exact MnemonicRow.mask_encodeA _ _

theorem and_F00F (w : Word) : w &&& (0xF00F : Word) = encodeXYN (fieldF w) 0 0 (fieldN w) := by
  conv_lhs => rw [← encodeXYN_fields w]
  exact MnemonicRow.mask_encodeXYN _ _ _ _

theorem and_F0FF (w : Word) : w &&& (0xF0FF : Word) = encodeXI (fieldF w) 0 (fieldNN w) := by
  conv_lhs => rw [← encodeXI_fields w]
  exact MnemonicRow.mask_encodeXI _ _ _

/-! ### What a row compares -/

theorem OpcodeRow.covers_iff {r : OpcodeRow} {w : Word} : r.covers w = true ↔ w &&& r.mask = r.pattern :=
  decide_eq_true_iff

theorem covers_word {name : String} {p w : Word} : OpcodeRow.covers ⟨name, p, 0xFFFF⟩ w = true ↔ w = p := by
  rw [OpcodeRow.covers_iff, show (0xFFFF : Word) = BitVec.allOnes 16 from rfl, BitVec.and_allOnes]

theorem covers_family {name : String} {f : Nibble} {w : Word} :
    OpcodeRow.covers ⟨name, encodeA f 0, 0xF000⟩ w = true ↔ fieldF w = f := by
  rw [OpcodeRow.covers_iff, and_F000]
  refine ⟨fun h => ?_, fun h => by rw [h]⟩
  rw [← fieldF_encodeA (fieldF w) 0, h, fieldF_encodeA]

theorem covers_familyN {name : String} {f n : Nibble} {w : Word} :
    OpcodeRow.covers ⟨name, encodeXYN f 0 0 n, 0xF00F⟩ w = true ↔ fieldF w = f ∧ fieldN w = n := by
  rw [OpcodeRow.covers_iff, and_F00F]
  refine ⟨fun h => ⟨?_, ?_⟩, fun h => by rw [h.1, h.2]⟩
  · rw [← fieldF_encodeXYN (fieldF w) 0 0 (fieldN w), h, fieldF_encodeXYN]
  · rw [← fieldN_encodeXYN (fieldF w) 0 0 (fieldN w), h, fieldN_encodeXYN]

theorem covers_familyNN {name : String} {f : Nibble} {nn : Byte} {w : Word} :
    OpcodeRow.covers ⟨name, encodeXI f 0 nn, 0xF0FF⟩ w = true ↔ fieldF w = f ∧ fieldNN w = nn := by
  rw [OpcodeRow.covers_iff, and_F0FF]
  refine ⟨fun h => ⟨?_, ?_⟩, fun h => by rw [h.1, h.2]⟩
  · rw [← fieldF_encodeXI (fieldF w) 0 (fieldNN w), h, fieldF_encodeXI]
  · rw [← fieldNN_encodeXI (fieldF w) 0 (fieldNN w), h, fieldNN_encodeXI]

/-! ### A covered word decodes to the row's instruction -/

/-- The decoder's answer is the instruction of row `r`. -/
def DecodesAsRow (w : Word) (r : OpcodeRow) : Prop := ∃ i, decodeWord w = .ok i ∧ i.mnemonic = r.mnemonic

/-- A word that is an encoding decodes as the row with the mnemonic. -/
theorem decodesAsRow_of_encode {w : Word} {r : OpcodeRow} (i : Instr) (hi : i.wellFormed = true) (hw : encode i = w)
    (hm : i.mnemonic = r.mnemonic) : DecodesAsRow w r :=
  ⟨i, hw ▸ decodeWord_encode hi, hm⟩

/-- Family 5 does not examine the low nibble. -/
theorem decodeWord_of_family5 {w : Word} (hF : fieldF w = 0x5#4) :
    decodeWord w = .ok (.seReg (fieldX w) (fieldY w)) := by
  simp only [decodeWord, hF]

/-- Family 9 does not examine the low nibble. -/
theorem decodeWord_of_family9 {w : Word} (hF : fieldF w = 0x9#4) :
    decodeWord w = .ok (.sneReg (fieldX w) (fieldY w)) := by
  simp only [decodeWord, hF]

theorem encodeA_of_covers {name : String} {f : Nibble} {w : Word}
    (h : OpcodeRow.covers ⟨name, encodeA f 0, 0xF000⟩ w = true) : encodeA f (fieldNNN w) = w :=
  encodeA_of_fieldF (covers_family.mp h)

theorem encodeXI_of_covers {name : String} {f : Nibble} {w : Word}
    (h : OpcodeRow.covers ⟨name, encodeA f 0, 0xF000⟩ w = true) : encodeXI f (fieldX w) (fieldNN w) = w :=
  encodeXI_of_fieldF (covers_family.mp h)

theorem encodeXYN_of_coversN {name : String} {f n : Nibble} {w : Word}
    (h : OpcodeRow.covers ⟨name, encodeXYN f 0 0 n, 0xF00F⟩ w = true) : encodeXYN f (fieldX w) (fieldY w) n = w :=
  (covers_familyN.mp h).elim encodeXYN_of_fields

theorem encodeXI_of_coversNN {name : String} {f : Nibble} {nn : Byte} {w : Word}
    (h : OpcodeRow.covers ⟨name, encodeXI f 0 nn, 0xF0FF⟩ w = true) : encodeXI f (fieldX w) nn = w :=
  (covers_familyNN.mp h).elim encodeXI_of_fields

theorem decodesAsRow_low {w : Word} : ∀ r ∈ opcodeRowsLow, r.covers w = true → DecodesAsRow w r := by
  simp only [opcodeRowsLow, List.forall_mem_cons]
  exact ⟨fun h => decodesAsRow_of_encode .cls rfl (covers_word.mp h).symm rfl,
    fun h => decodesAsRow_of_encode .ret rfl (covers_word.mp h).symm rfl,
    fun h => decodesAsRow_of_encode (.jp _) rfl (encodeA_of_covers h) rfl,
    fun h => decodesAsRow_of_encode (.call _) rfl (encodeA_of_covers h) rfl,
    fun h => decodesAsRow_of_encode (.seImm _ _) rfl (encodeXI_of_covers h) rfl,
    fun h => decodesAsRow_of_encode (.sneImm _ _) rfl (encodeXI_of_covers h) rfl,
    fun h => ⟨_, decodeWord_of_family5 (covers_family.mp h), rfl⟩,
    fun h => decodesAsRow_of_encode (.ldImm _ _) rfl (encodeXI_of_covers h) rfl,
    fun h => decodesAsRow_of_encode (.addImm _ _) rfl (encodeXI_of_covers h) rfl, List.forall_mem_nil _⟩

theorem decodesAsRow_8 {w : Word} : ∀ r ∈ opcodeRows8, r.covers w = true → DecodesAsRow w r := by
  simp only [opcodeRows8, List.forall_mem_cons]
  exact ⟨fun h => decodesAsRow_of_encode (.ldReg _ _) rfl (encodeXYN_of_coversN h) rfl,
    fun h => decodesAsRow_of_encode (.or _ _) rfl (encodeXYN_of_coversN h) rfl,
    fun h => decodesAsRow_of_encode (.and _ _) rfl (encodeXYN_of_coversN h) rfl,
    fun h => decodesAsRow_of_encode (.xor _ _) rfl (encodeXYN_of_coversN h) rfl,
    fun h => decodesAsRow_of_encode (.addReg _ _) rfl (encodeXYN_of_coversN h) rfl,
    fun h => decodesAsRow_of_encode (.sub _ _) rfl (encodeXYN_of_coversN h) rfl,
    fun h => decodesAsRow_of_encode (.shr _ _) rfl (encodeXYN_of_coversN h) rfl,
    fun h => decodesAsRow_of_encode (.subn _ _) rfl (encodeXYN_of_coversN h) rfl,
    fun h => decodesAsRow_of_encode (.shl _ _) rfl (encodeXYN_of_coversN h) rfl, List.forall_mem_nil _⟩

theorem decodesAsRow_high {w : Word} : ∀ r ∈ opcodeRowsHigh, r.covers w = true → DecodesAsRow w r := by
  simp only [opcodeRowsHigh, List.forall_mem_cons]
  exact ⟨fun h => ⟨_, decodeWord_of_family9 (covers_family.mp h), rfl⟩,
    fun h => decodesAsRow_of_encode (.ldI _) rfl (encodeA_of_covers h) rfl,
    fun h => decodesAsRow_of_encode (.jpV0 _) rfl (encodeA_of_covers h) rfl,
    fun h => decodesAsRow_of_encode (.rnd _ _) rfl (encodeXI_of_covers h) rfl,
    fun h =>
      decodesAsRow_of_encode (.drw _ _ _) (rowCountFits_fieldN w) (encode_drw_of_fieldF (covers_family.mp h)) rfl,
    List.forall_mem_nil _⟩

theorem decodesAsRow_EF {w : Word} : ∀ r ∈ opcodeRowsEF, r.covers w = true → DecodesAsRow w r := by
  simp only [opcodeRowsEF, List.forall_mem_cons]
  exact ⟨fun h => decodesAsRow_of_encode (.skp _) rfl (encodeXI_of_coversNN h) rfl,
    fun h => decodesAsRow_of_encode (.sknp _) rfl (encodeXI_of_coversNN h) rfl,
    fun h => decodesAsRow_of_encode (.ldVxDt _) rfl (encodeXI_of_coversNN h) rfl,
    fun h => decodesAsRow_of_encode (.ldVxK _) rfl (encodeXI_of_coversNN h) rfl,
    fun h => decodesAsRow_of_encode (.ldDtVx _) rfl (encodeXI_of_coversNN h) rfl,
    fun h => decodesAsRow_of_encode (.ldStVx _) rfl (encodeXI_of_coversNN h) rfl,
    fun h => decodesAsRow_of_encode (.addI _) rfl (encodeXI_of_coversNN h) rfl,
    fun h => decodesAsRow_of_encode (.ldF _) rfl (encodeXI_of_coversNN h) rfl,
    fun h => decodesAsRow_of_encode (.ldB _) rfl (encodeXI_of_coversNN h) rfl,
    fun h => decodesAsRow_of_encode (.stRegs _) rfl (encodeXI_of_coversNN h) rfl,
    fun h => decodesAsRow_of_encode (.ldRegs _) rfl (encodeXI_of_coversNN h) rfl, List.forall_mem_nil _⟩

theorem decodesAsRow_of_covers {w : Word} : ∀ r ∈ opcodeTable, r.covers w = true → DecodesAsRow w r := by
  simp only [opcodeTable, List.forall_mem_append]
  exact ⟨decodesAsRow_low, decodesAsRow_8, decodesAsRow_high, decodesAsRow_EF⟩

/-! ### A word that decodes is covered -/

theorem mnemonicRow : (i : Instr) → MnemonicRow.Statement i
  | .cls => MnemonicRow.cls
  | .ret => MnemonicRow.ret
  | .jp _ => MnemonicRow.jp _
  | .call _ => MnemonicRow.call _
  | .seImm _ _ => MnemonicRow.seImm _ _
  | .sneImm _ _ => MnemonicRow.sneImm _ _
  | .seReg _ _ => MnemonicRow.seReg _ _
  | .ldImm _ _ => MnemonicRow.ldImm _ _
  | .addImm _ _ => MnemonicRow.addImm _ _
  | .ldReg _ _ => MnemonicRow.ldReg _ _
  | .or _ _ => MnemonicRow.or _ _
  | .and _ _ => MnemonicRow.and _ _
  | .xor _ _ => MnemonicRow.xor _ _
  | .addReg _ _ => MnemonicRow.addReg _ _
  | .sub _ _ => MnemonicRow.sub _ _
  | .shr _ _ => MnemonicRow.shr _ _
  | .subn _ _ => MnemonicRow.subn _ _
  | .shl _ _ => MnemonicRow.shl _ _
  | .sneReg _ _ => MnemonicRow.sneReg _ _
  | .ldI _ => MnemonicRow.ldI _
  | .jpV0 _ => MnemonicRow.jpV0 _
  | .rnd _ _ => MnemonicRow.rnd _ _
  | .drw _ _ _ => MnemonicRow.drw _ _ _
  | .skp _ => MnemonicRow.skp _
  | .sknp _ => MnemonicRow.sknp _
  | .ldVxDt _ => MnemonicRow.ldVxDt _
  | .ldVxK _ => MnemonicRow.ldVxK _
  | .ldDtVx _ => MnemonicRow.ldDtVx _
  | .ldStVx _ => MnemonicRow.ldStVx _
  | .addI _ => MnemonicRow.addI _
  | .ldF _ => MnemonicRow.ldF _
  | .ldB _ => MnemonicRow.ldB _
  | .stRegs _ => MnemonicRow.stRegs _
  | .ldRegs _ => MnemonicRow.ldRegs _

/-- The encoding of every instruction is a word of the table. -/
theorem encode_covered (i : Instr) : ∃ r ∈ opcodeTable, r.covers (encode i) = true := by
  obtain ⟨r, hrow, hcov⟩ := mnemonicRow i
  have hr : r ∈ opcodeTable.filter (fun r => r.mnemonic = i.mnemonic) := hrow ▸ List.mem_singleton_self r
  exact ⟨r, List.mem_of_mem_filter hr, hcov⟩

/-- A word that decodes is covered: in families 5 and 9 by the family's only row, elsewhere because it is the encoding
of what it decodes to. -/
theorem covered_of_decodeWord {w : Word} {i : Instr} (h : decodeWord w = .ok i) :
    ∃ r ∈ opcodeTable, r.covers w = true := by
  by_cases h5 : fieldF w = 0x5#4
  · exact ⟨⟨"SE_REG", 0x5000, 0xF000⟩, by decide, covers_family.mpr h5⟩
  by_cases h9 : fieldF w = 0x9#4
  · exact ⟨⟨"SNE_REG", 0x9000, 0xF000⟩, by decide, covers_family.mpr h9⟩
  rw [← canonicalWord_of_examined rfl h5 h9, ← (decodeWord_ok h).2]
  exact encode_covered i

/-! ### A rejected word -/

theorem decodeFamily0_error {w : Word} {e : DecodeReject} (h : decodeFamily0 w = .error e) : e = .unmatched w := by
  unfold decodeFamily0 at h
  split at h
  · cases h
  · split at h <;> cases h
    rfl

theorem decodeFamily8_error {w : Word} {e : DecodeReject} (h : decodeFamily8 w = .error e) : e = .unmatched w := by
  unfold decodeFamily8 at h
  split at h <;> cases h
  rfl

theorem decodeFamilyE_error {w : Word} {e : DecodeReject} (h : decodeFamilyE w = .error e) : e = .unmatched w := by
  unfold decodeFamilyE at h
  split at h <;> cases h
  rfl

theorem decodeFamilyF_error {w : Word} {e : DecodeReject} (h : decodeFamilyF w = .error e) : e = .unmatched w := by
  unfold decodeFamilyF at h
  split at h <;> cases h
  rfl

/-- Only the families 0, 8, E and F reject a word, and only as unmatched. -/
theorem decodeWord_error {w : Word} {e : DecodeReject} (h : decodeWord w = .error e) : e = .unmatched w := by
  unfold decodeWord at h
  split at h
  case h_1 => exact decodeFamily0_error h
  case h_9 => exact decodeFamily8_error h
  case h_15 => exact decodeFamilyE_error h
  case h_16 => exact decodeFamilyF_error h
  all_goals cases h

end Sys2Proof
end

section
/-! PROOFS. The statements of 30_encoding.md: the opcode table. -/

namespace Sys2Proof

/-- Settles O3. A covered word is the encoding of an instruction with the row's mnemonic (or of a family that does not
examine the low nibble); a word that no row covers cannot have decoded, and the decoder has only one reason to reject
it. -/
theorem decodeFollowsOpcodeTable : Obligations.DecodeFollowsOpcodeTable := by
  refine ⟨fun w => decodesAsRow_of_covers, fun w huncovered => ?_⟩
  cases h : decodeWord w with
  | error e => rw [decodeWord_error h]
  | ok i =>
    obtain ⟨r, hr, hcov⟩ := covered_of_decodeWord h
    exact absurd hcov (by rw [huncovered r hr]; decide)

/-- Settles O4, a finite check of the table. -/
theorem opcodeRowsDisjoint : Obligations.OpcodeRowsDisjoint := by
  unfold Obligations.OpcodeRowsDisjoint
  decide

/-- Settles O5, the decoder run on the twelve words. -/
theorem sampleWordsDecode : Obligations.SampleWordsDecode := by
  unfold Obligations.SampleWordsDecode
  decide

end Sys2Proof
end

section
/-! SUPPORT. Said once, what executing an instruction can do: stop the model (`stuck`), raise one fault (`faultOf`), or
complete in one state (`completed`). `exec_completes`, `exec_faults` and `exec_stuck` tie the three to `exec`. -/

namespace Sys2Proof.Machine

/-- The state after a fault: the same state but for the latch and `draw_req` (60_exceptions.md R88). -/
def State.halt (s : State) (f : FaultRecord) : State := { s with fault := some f, drawReq := false }

/-- `MemOutOfRange`, if one of the `n` addresses from `I` upward does not exist. -/
def rangeFault (n : Nat) (s : State) : Option FaultRecord :=
  if n = 0 ∨ baseAddress s + n ≤ 0x1000 then none else some ⟨.memOutOfRange, max (baseAddress s) 0x1000⟩

/-- `KeyIndexOutOfRange`, if a register's value names no key. -/
def keyFault (b : Byte) : Option FaultRecord := if 15 < b.toNat then some ⟨.keyIndexOutOfRange, b.toNat⟩ else none

/-- Is the key that a register's value names held? -/
def keyHeld (b : Byte) (s : State) : Bool := (s.key[b.toNat]?).getD false

/-- The sprite that `Dxyn` reads: the rows that are drawn (43_display.md R79). -/
def spriteRows (y : Reg) (n : Nat) (s : State) : List Byte :=
  s.mem.readBytes (baseAddress s) (visibleRows n (originRow (s.reg y)))

/-- The framebuffer and the collision flag after a `Dxyn`. -/
def drawn (x y : Reg) (n : Nat) (s : State) : Canvas :=
  drawRows (originColumn (s.reg x)) (originRow (s.reg y)) (spriteRows y n s) (s.fb, false)

/-- The states for which the model gives an instruction no effect (10_state.md R12). -/
def stuck (i : Instr) (s : State) : Prop :=
  match i with
  | .ret | .call _ => 15 < s.sp.toNat
  | _ => False

/-- The fault an instruction raises, if it raises one. -/
def faultOf (i : Instr) (s : State) : Option FaultRecord :=
  match i with
  | .ret => if s.sp = 0 then some ⟨.stackUnderflow, s.pc.toNat⟩ else none
  | .call _ => if s.sp.toNat = 15 then some ⟨.stackOverflow, s.pc.toNat⟩ else none
  | .drw _ y n => rangeFault (visibleRows n (originRow (s.reg y))) s
  | .ldB _ => rangeFault 3 s
  | .stRegs x | .ldRegs x => rangeFault (x.val + 1) s
  | .skp x | .sknp x => keyFault (s.reg x)
  | _ => none

/-- The bytes an instruction stores, from `I` upward. -/
def bytesOf (i : Instr) (s : State) : List Byte :=
  match i with
  | .ldB x => decimalDigits (s.reg x)
  | .stRegs x => s.regsUpTo x
  | _ => []

/-- The state after `Fx0A`: `Vx` and `pc` as before while no key is held (44_keypad_timers.md R84). -/
def afterWait (x : Reg) (s : State) : State :=
  { s with
    v := s.leastHeld.elim s.v fun k => s.v.set x (BitVec.ofNat 8 k.val)
    pc := s.leastHeld.elim s.pc fun _ => s.pc + 2 }

/-- The state in which an instruction completes. -/
def completed (i : Instr) (s : State) : State :=
  match i with
  | .cls => ((s.setFb Framebuffer.blank).setDrawReq true).advance
  | .ret => s.pop.setPc (s.top + 2)
  | .jp nnn => s.setPc (addressOf nnn)
  | .call nnn => (s.push s.pc).setPc (addressOf nnn)
  | .seImm x nn => s.skipIf (s.reg x = nn)
  | .sneImm x nn => s.skipIf (s.reg x ≠ nn)
  | .seReg x y => s.skipIf (s.reg x = s.reg y)
  | .ldImm x nn => (s.setReg x nn).advance
  | .addImm x nn => (s.setReg x (trunc8 ((s.reg x).toNat + nn.toNat))).advance
  | .ldReg x y => (s.setReg x (s.reg y)).advance
  | .or x y => (s.setReg x (s.reg x ||| s.reg y)).advance
  | .and x y => (s.setReg x (s.reg x &&& s.reg y)).advance
  | .xor x y => (s.setReg x (s.reg x ^^^ s.reg y)).advance
  | .addReg x y =>
    (s.writeResultThenFlag x (trunc8 ((s.reg x).toNat + (s.reg y).toNat)) (carryOut (s.reg x) (s.reg y))).advance
  | .sub x y =>
    (s.writeResultThenFlag x (trunc8 ((s.reg x).toNat + 256 - (s.reg y).toNat)) (notBorrow (s.reg x) (s.reg y))).advance
  | .shr x _ => (s.writeResultThenFlag x (s.reg x >>> 1) (bitOutRight (s.reg x))).advance
  | .subn x y =>
    (s.writeResultThenFlag x (trunc8 ((s.reg y).toNat + 256 - (s.reg x).toNat)) (notBorrow (s.reg y) (s.reg x))).advance
  | .shl x _ => (s.writeResultThenFlag x (s.reg x <<< 1) (bitOutLeft (s.reg x))).advance
  | .sneReg x y => s.skipIf (s.reg x ≠ s.reg y)
  | .ldI nnn => (s.setI (addressOf nnn)).advance
  | .jpV0 nnn => s.setPc (offsetTarget nnn s)
  | .rnd x nn => ((s.setReg x (Config.rndByte s.draws &&& nn)).countDraw).advance
  | .drw x y n =>
    (((s.setFb (drawn x y n s).1).setReg vf (flagByte (drawn x y n s).2)).setDrawReq true).advance
  | .skp x => s.skipIf (keyHeld (s.reg x) s)
  | .sknp x => s.skipIf (!keyHeld (s.reg x) s)
  | .ldVxDt x => (s.setReg x s.dt).advance
  | .ldVxK x => afterWait x s
  | .ldDtVx x => (s.setDT (s.reg x)).advance
  | .ldStVx x => (s.setST (s.reg x)).advance
  | .addI x => (s.setI (indexPlus s.i (s.reg x))).advance
  | .ldF x => (s.setI (glyphAddress (s.reg x))).advance
  | .ldB x => (s.setMem (s.mem.writeBytes (baseAddress s) (decimalDigits (s.reg x)))).advance
  | .stRegs x => (s.setMem (s.mem.writeBytes (baseAddress s) (s.regsUpTo x))).advance
  | .ldRegs x => (s.loadRegs (s.mem.readBytes (baseAddress s) (x.val + 1))).advance

/-! ### The three ways -/

theorem rangeFault_eq_none {n : Nat} {s : State} : rangeFault n s = none ↔ n = 0 ∨ baseAddress s + n ≤ 0x1000 := by
  simp only [rangeFault, ite_eq_left_iff, reduceCtorEq, imp_false, Decidable.not_not]

theorem rangeFault_eq_some {n : Nat} {s : State} {f : FaultRecord} :
    rangeFault n s = some f ↔
      ¬ (n = 0 ∨ baseAddress s + n ≤ 0x1000) ∧ ⟨.memOutOfRange, max (baseAddress s) 0x1000⟩ = f := by
  simp only [rangeFault, Option.ite_none_left_eq_some, Option.some.injEq]

theorem keyFault_eq_none {b : Byte} : keyFault b = none ↔ b.toNat ≤ 15 := by
  simp [keyFault]

theorem keyFault_eq_some {b : Byte} {f : FaultRecord} :
    keyFault b = some f ↔ 15 < b.toNat ∧ ⟨.keyIndexOutOfRange, b.toNat⟩ = f := by
  simp only [keyFault, Option.ite_none_right_eq_some, Option.some.injEq]

theorem faultOf_ret_eq_none {s : State} : faultOf .ret s = none ↔ s.sp ≠ 0 := by
  simp [faultOf]

theorem faultOf_ret_eq_some {s : State} {f : FaultRecord} :
    faultOf .ret s = some f ↔ s.sp = 0 ∧ ⟨.stackUnderflow, s.pc.toNat⟩ = f := by
  simp only [faultOf, Option.ite_none_right_eq_some, Option.some.injEq]

theorem faultOf_call_eq_none {nnn : Addr12} {s : State} : faultOf (.call nnn) s = none ↔ s.sp.toNat ≠ 15 := by
  simp [faultOf]

theorem faultOf_call_eq_some {nnn : Addr12} {s : State} {f : FaultRecord} :
    faultOf (.call nnn) s = some f ↔ s.sp.toNat = 15 ∧ ⟨.stackOverflow, s.pc.toNat⟩ = f := by
  simp only [faultOf, Option.ite_none_right_eq_some, Option.some.injEq]

theorem withBytes_completes {n : Nat} {s : State} (h : rangeFault n s = none) (go : List Byte → Result) :
    withBytes (baseAddress s) n s go = go (s.mem.readBytes (baseAddress s) n) := by
  rw [withBytes_eq, if_pos (rangeFault_eq_none.mp h)]

theorem withBytes_faults {n : Nat} {s : State} {f : FaultRecord} (h : rangeFault n s = some f)
    (go : List Byte → Result) : withBytes (baseAddress s) n s go = .next (s.halt f) := by
  obtain ⟨hn, rfl⟩ := rangeFault_eq_some.mp h
  rw [withBytes_eq, if_neg hn, raise_eq]
  rfl

theorem storeBytes_completes {bytes : List Byte} {n : Nat} (hn : bytes.length = n) {s : State}
    (h : rangeFault n s = none) (go : State → Result) :
    storeBytes (baseAddress s) bytes s go = go (s.setMem (s.mem.writeBytes (baseAddress s) bytes)) := by
  rw [storeBytes_eq, hn, if_pos (rangeFault_eq_none.mp h)]

theorem storeBytes_faults {bytes : List Byte} {n : Nat} (hn : bytes.length = n) {s : State} {f : FaultRecord}
    (h : rangeFault n s = some f) (go : State → Result) :
    storeBytes (baseAddress s) bytes s go = .next (s.halt f) := by
  obtain ⟨hrange, rfl⟩ := rangeFault_eq_some.mp h
  rw [storeBytes_eq, hn, if_neg hrange, raise_eq]
  rfl

theorem withKey_completes {b : Byte} (h : keyFault b = none) (s : State) (go : Bool → Result) :
    withKey b s (fun k => go (s.held k)) = go (keyHeld b s) := by
  have hb : b.toNat < 16 := Nat.lt_succ_of_le (keyFault_eq_none.mp h)
  rw [withKey_of_key ⟨b.toNat, hb⟩ rfl]
  simp [keyHeld, State.held, hb]

theorem withKey_faults {b : Byte} {f : FaultRecord} (h : keyFault b = some f) (s : State) (go : Fin 16 → Result) :
    withKey b s go = .next (s.halt f) := by
  obtain ⟨hb, rfl⟩ := keyFault_eq_some.mp h
  rw [withKey_of_no_key hb, raise_eq]
  rfl

theorem length_decimalDigits (b : Byte) : (decimalDigits b).length = 3 := rfl

theorem afterWait_of_held {x : Reg} {s : State} {k : Fin 16} (h : s.leastHeld = some k) :
    afterWait x s = (s.setReg x (BitVec.ofNat 8 k.val)).advance := by
  rw [afterWait, h]
  rfl

theorem afterWait_of_none {x : Reg} {s : State} (h : s.leastHeld = none) : afterWait x s = s := by
  rw [afterWait, h]
  rfl

theorem execLdVxK_eq (x : Reg) (s : State) : execLdVxK x s = .next (afterWait x s) := by
  cases h : s.leastHeld with
  | some k => rw [execLdVxK, h, afterWait_of_held h]
  | none => rw [execLdVxK, h, afterWait_of_none h]

theorem exec_completes {i : Instr} {s : State} (hs : ¬ stuck i s) (hf : faultOf i s = none) :
    exec i s = .next (completed i s) := by
  cases i with
  | ret => exact (if_neg (faultOf_ret_eq_none.mp hf)).trans (if_neg hs)
  | call nnn => exact (if_neg (faultOf_call_eq_none.mp hf)).trans (if_neg hs)
  | drw x y n =>
    show execDrw x y n s = _
    rw [execDrw, withBytes_completes hf]
    rfl
  | ldB x => exact storeBytes_completes (length_decimalDigits (s.reg x)) hf fun t => .next t.advance
  | stRegs x => exact storeBytes_completes (s.length_regsUpTo x) hf fun t => .next t.advance
  | ldRegs x => exact withBytes_completes hf fun bytes => .next (s.loadRegs bytes).advance
  | skp x => exact withKey_completes hf s fun held => .next (s.skipIf held)
  | sknp x => exact withKey_completes hf s fun held => .next (s.skipIf !held)
  | ldVxK x => exact execLdVxK_eq x s
  | _ => rfl

theorem exec_faults {i : Instr} {s : State} {f : FaultRecord} (h : faultOf i s = some f) :
    exec i s = .next (s.halt f) := by
  cases i with
  | ret =>
    obtain ⟨hsp, rfl⟩ := faultOf_ret_eq_some.mp h
    exact if_pos hsp
  | call nnn =>
    obtain ⟨hsp, rfl⟩ := faultOf_call_eq_some.mp h
    exact if_pos hsp
  | drw x y n =>
    show execDrw x y n s = _
    rw [execDrw, withBytes_faults h]
  | ldB x => exact storeBytes_faults (length_decimalDigits (s.reg x)) h fun t => .next t.advance
  | stRegs x => exact storeBytes_faults (s.length_regsUpTo x) h fun t => .next t.advance
  | ldRegs x => exact withBytes_faults h fun bytes => .next (s.loadRegs bytes).advance
  | skp x => exact withKey_faults h s fun k => .next (s.skipIf (s.held k))
  | sknp x => exact withKey_faults h s fun k => .next (s.skipIf !s.held k)
  | _ => cases h

theorem exec_stuck {i : Instr} {s : State} (h : stuck i s) : exec i s = .fault .spNotLegal := by
  cases i with
  | ret =>
    have hsp : s.sp ≠ 0 := fun e => by simp [stuck, e] at h
    exact (if_neg hsp).trans (if_pos h)
  | call nnn => exact (if_neg (Nat.ne_of_gt h)).trans (if_pos h)
  | _ => exact h.elim

/-- Every next state that `exec` answers: the completed one, or the old one halted. -/
theorem exec_next {i : Instr} {s t : State} (h : exec i s = .next t) :
    (¬ stuck i s ∧ faultOf i s = none ∧ t = completed i s) ∨ ∃ f, faultOf i s = some f ∧ t = s.halt f := by
  cases hf : faultOf i s with
  | some f =>
    rw [exec_faults hf] at h
    cases h
    exact .inr ⟨f, rfl, rfl⟩
  | none =>
    by_cases hs : stuck i s
    · rw [exec_stuck hs] at h
      cases h
    · rw [exec_completes hs hf] at h
      cases h
      exact .inl ⟨hs, rfl, rfl⟩

end Sys2Proof.Machine
end

section
/-! SUPPORT. Which state a completed instruction leaves unchanged, field by field. -/

namespace Sys2Proof.Machine

/-! ### Registers -/

theorem reg_afterWait_other {x r : Reg} (s : State) (h : r ≠ x) : (afterWait x s).reg r = s.reg r := by
  cases hk : s.leastHeld with
  | none => rw [afterWait_of_none hk]
  | some k => rw [afterWait_of_held hk, State.reg_advance, State.reg_setReg_other s _ h]

theorem reg_completed_of_not_written {i : Instr} {r : Reg} (s : State) (h : i.writesReg r = false) :
    (completed i s).reg r = s.reg r := by
  cases i with
  | ldImm x | addImm x | ldReg x | or x | and x | xor x | rnd x | ldVxDt x =>
    exact State.reg_setReg_other s _ (of_decide_eq_false h)
  | addReg x | sub x | shr x | subn x | shl x =>
    obtain ⟨hx, hf⟩ : r ≠ x ∧ r ≠ vf := by simpa [Instr.writesReg] using h
    exact (s.reg_writeResultThenFlag x _ _ r).trans (by rw [if_neg hf, if_neg hx])
  | drw => exact State.reg_setReg_other _ _ (of_decide_eq_false h)
  | ldVxK x => exact reg_afterWait_other s (of_decide_eq_false h)
  | ldRegs x =>
    have hx : ¬ r.val < x.val + 1 := fun hr => of_decide_eq_false h (Fin.le_def.mpr (Nat.le_of_lt_succ hr))
    exact (s.reg_loadRegs _ r).trans (by rw [Memory.length_readBytes, if_neg hx])
  | _ => rfl

theorem reg_vf_completed_of_writesFlag {i : Instr} (s : State) (h : i.writesFlag = true) :
    ∃ b, (completed i s).reg vf = flagByte b := by
  cases i with
  | addReg x | sub x | shr x | subn x | shl x => exact ⟨_, (s.reg_writeResultThenFlag x _ _ vf).trans (if_pos rfl)⟩
  | drw => exact ⟨_, State.reg_setReg_self _ vf _⟩
  | _ => cases h

/-! ### Memory -/

theorem mem_completed (i : Instr) (s : State) :
    (completed i s).mem = s.mem.writeBytes (baseAddress s) (bytesOf i s) := by
  cases i <;> rfl

theorem length_bytesOf (i : Instr) (s : State) : (bytesOf i s).length = i.bytesStored := by
  cases i with
  | stRegs x => exact s.length_regsUpTo x
  | _ => rfl

/-! ### The other fields -/

theorem sp_completed {i : Instr} (s : State) (hr : i ≠ .ret) (hc : ∀ nnn, i ≠ .call nnn) :
    (completed i s).sp = s.sp := by
  cases i with
  | ret => exact absurd rfl hr
  | call nnn => exact absurd rfl (hc nnn)
  | _ => rfl

theorem stack_completed {i : Instr} (s : State) (hc : ∀ nnn, i ≠ .call nnn) : (completed i s).stack = s.stack := by
  cases i with
  | call nnn => exact absurd rfl (hc nnn)
  | _ => rfl

theorem i_completed {i : Instr} (s : State) (hl : ∀ nnn, i ≠ .ldI nnn) (ha : ∀ x, i ≠ .addI x) (hf : ∀ x, i ≠ .ldF x) :
    (completed i s).i = s.i := by
  cases i with
  | ldI nnn => exact absurd rfl (hl nnn)
  | addI x => exact absurd rfl (ha x)
  | ldF x => exact absurd rfl (hf x)
  | _ => rfl

theorem dt_completed {i : Instr} (s : State) (h : ∀ x, i ≠ .ldDtVx x) : (completed i s).dt = s.dt := by
  cases i with
  | ldDtVx x => exact absurd rfl (h x)
  | _ => rfl

theorem st_completed {i : Instr} (s : State) (h : ∀ x, i ≠ .ldStVx x) : (completed i s).st = s.st := by
  cases i with
  | ldStVx x => exact absurd rfl (h x)
  | _ => rfl

theorem fb_completed {i : Instr} (s : State) (h : ¬ i.isDisplay) : (completed i s).fb = s.fb := by
  cases i with
  | cls => exact absurd (.inl rfl) h
  | drw x y n => exact absurd (.inr ⟨x, y, n, rfl⟩) h
  | _ => rfl

theorem key_completed (i : Instr) (s : State) : (completed i s).key = s.key := by
  cases i <;> rfl

theorem draws_completed {i : Instr} (s : State) (h : ∀ x nn, i ≠ .rnd x nn) : (completed i s).draws = s.draws := by
  cases i with
  | rnd x nn => exact absurd rfl (h x nn)
  | _ => rfl

theorem fault_completed (i : Instr) (s : State) : (completed i s).fault = s.fault := by
  cases i <;> rfl

/-- The two display instructions set `draw_req`, and no other completed instruction touches it. -/
theorem drawReq_completed_display {i : Instr} (s : State) (h : i.isDisplay) : (completed i s).drawReq = true := by
  obtain rfl | ⟨x, y, n, rfl⟩ := h <;> rfl

theorem drawReq_completed_other {i : Instr} (s : State) (h : ¬ i.isDisplay) :
    (completed i s).drawReq = s.drawReq := by
  cases i with
  | cls => exact absurd (.inl rfl) h
  | drw x y n => exact absurd (.inr ⟨x, y, n, rfl⟩) h
  | _ => rfl

end Sys2Proof.Machine
end

section
/-! PROOFS. The frames: what each instruction leaves unchanged. A raised fault changes the latch and `draw_req` only, so
each frame is that of the completed instruction. -/

namespace Sys2Proof.Machine

/-- Settles O21. The flag is the last write of the six that write one, so `x = F` is no special case. -/
theorem registerFrame : Obligations.RegisterFrame := by
  intro i s t h
  obtain ⟨-, -, rfl⟩ | ⟨f, -, rfl⟩ := exec_next h
  case inl =>
    refine ⟨fun r hr => reg_completed_of_not_written s hr, fun hf _ => ?flag⟩
    case flag =>
      obtain ⟨b, hb⟩ := reg_vf_completed_of_writesFlag s hf
      rw [hb]
      exact flagByte_eq_zero_or_one b
  case inr => exact ⟨fun _ _ => rfl, fun _ hrunning => by cases hrunning⟩

/-- Settles O22. Memory afterwards is the old one with the stored bytes written from `I` upward. -/
theorem memoryFrame : Obligations.MemoryFrame := by
  intro i s t h
  obtain ⟨-, -, rfl⟩ | ⟨f, -, rfl⟩ := exec_next h
  case inl =>
    rw [mem_completed]
    refine ⟨fun a ha => ?outside, fun hnone => ?nothing⟩
    case outside => rw [Memory.read_writeBytes, length_bytesOf, if_neg (by omega)]
    case nothing =>
      rw [List.eq_nil_of_length_eq_zero ((length_bytesOf i s).trans hnone)]
      rfl
  case inr => exact ⟨fun _ _ => rfl, fun _ => rfl⟩

/-- Settles O23, field by field. -/
theorem controlStateFrame : Obligations.ControlStateFrame := by
  intro i s t h
  obtain ⟨-, -, rfl⟩ | ⟨f, -, rfl⟩ := exec_next h
  case inl =>
    exact ⟨sp_completed s, stack_completed s, i_completed s, dt_completed s, st_completed s, fb_completed s,
      key_completed i s, draws_completed s⟩
  case inr =>
    exact ⟨fun _ _ => rfl, fun _ => rfl, fun _ _ _ => rfl, fun _ => rfl, fun _ => rfl, fun _ => rfl, rfl, fun _ => rfl⟩

end Sys2Proof.Machine
end

section
/-! SUPPORT. Said once, what a step can do: `StepTo s t` holds exactly when a step of `s` answers `t`, and has one case
for each reason (30_encoding.md R39, R47; 60_exceptions.md R88, R89). -/

namespace Sys2Proof.Machine

inductive StepTo (s : State) : State → Prop
  /-- A halted core ignores the step (R88). -/
  | halted (f : FaultRecord) (hhalt : s.fault = some f) : StepTo s s
  /-- Nothing can be fetched at `pc` (R89). -/
  | unfetchable (hrun : s.fault = none) (hpc : 0xFFE < s.pc.toNat) : StepTo s (s.halt ⟨.pcOutOfRange, s.pc.toNat⟩)
  /-- The fetched word is no instruction (R47). -/
  | unmatched (e : DecodeReject) (hrun : s.fault = none) (hpc : s.pc.toNat ≤ 0xFFE)
      (hdec : decodeWord (s.wordAt s.pc.toNat) = .error e) : StepTo s (s.setDrawReq false)
  /-- The fetched instruction completes (R39). -/
  | completes (i : Instr) (hrun : s.fault = none) (hpc : s.pc.toNat ≤ 0xFFE)
      (hdec : decodeWord (s.wordAt s.pc.toNat) = .ok i) (hstuck : ¬ stuck i s) (hfault : faultOf i s = none) :
      StepTo s (completed i (s.setDrawReq false))
  /-- The fetched instruction raises a fault (R88). -/
  | faults (i : Instr) (f : FaultRecord) (hrun : s.fault = none) (hpc : s.pc.toNat ≤ 0xFFE)
      (hdec : decodeWord (s.wordAt s.pc.toNat) = .ok i) (hfault : faultOf i s = some f) : StepTo s (s.halt f)

theorem faultOf_setDrawReq (i : Instr) (s : State) (b : Bool) : faultOf i (s.setDrawReq b) = faultOf i s := by
  cases i <;> rfl

theorem stuck_setDrawReq (i : Instr) (s : State) (b : Bool) : stuck i (s.setDrawReq b) = stuck i s := by
  cases i <;> rfl

theorem step_of_halted {s : State} {f : FaultRecord} (h : s.fault = some f) : step s = .next s := by
  simp only [step, h]

theorem step_of_unfetchable {s : State} (hrun : s.fault = none) (hpc : 0xFFE < s.pc.toNat) :
    step s = .next (s.halt ⟨.pcOutOfRange, s.pc.toNat⟩) := by
  simp only [step, hrun, withFetched, gt_iff_lt, hpc, if_true]
  rfl

theorem step_of_unmatched {s : State} {e : DecodeReject} (hrun : s.fault = none) (hpc : s.pc.toNat ≤ 0xFFE)
    (hdec : decodeWord (s.wordAt s.pc.toNat) = .error e) : step s = .next (s.setDrawReq false) := by
  simp only [step, hrun, withFetched_of_le hpc, hdec]

theorem step_of_stepTo {s t : State} (h : StepTo s t) : step s = .next t := by
  cases h with
  | halted f hhalt => exact step_of_halted hhalt
  | unfetchable hrun hpc => exact step_of_unfetchable hrun hpc
  | unmatched e hrun hpc hdec => exact step_of_unmatched hrun hpc hdec
  | completes i hrun hpc hdec hstuck hfault =>
    rw [step_of_decodeWord hrun hpc hdec]
    exact exec_completes (by rwa [stuck_setDrawReq]) (by rwa [faultOf_setDrawReq])
  | faults i f hrun hpc hdec hfault =>
    rw [step_of_decodeWord hrun hpc hdec]
    exact exec_faults (by rwa [faultOf_setDrawReq])

theorem stepTo_of_step {s t : State} (h : step s = .next t) : StepTo s t := by
  cases hrun : s.fault with
  | some f =>
    cases (step_of_halted hrun).symm.trans h
    exact .halted f hrun
  | none =>
    by_cases hpc : s.pc.toNat ≤ 0xFFE
    case neg =>
      have hpc' := Nat.lt_of_not_le hpc
      cases (step_of_unfetchable hrun hpc').symm.trans h
      exact .unfetchable hrun hpc'
    case pos =>
      cases hdec : decodeWord (s.wordAt s.pc.toNat) with
      | error e =>
        cases (step_of_unmatched hrun hpc hdec).symm.trans h
        exact .unmatched e hrun hpc hdec
      | ok i =>
        obtain ⟨hstuck, hfault, rfl⟩ | ⟨f, hfault, rfl⟩ := exec_next ((step_of_decodeWord hrun hpc hdec).symm.trans h)
        · exact .completes i hrun hpc hdec (by rwa [stuck_setDrawReq] at hstuck) (by rwa [faultOf_setDrawReq] at hfault)
        · exact .faults i f hrun hpc hdec (by rwa [faultOf_setDrawReq] at hfault)

theorem not_stuck_of_sp_le {s : State} (h : s.sp.toNat ≤ 15) (i : Instr) : ¬ stuck i s := by
  cases i with
  | ret | call => exact Nat.not_lt.mpr h
  | _ => exact id

/-- With a legal `sp` every step is one of the cases. -/
theorem exists_stepTo {s : State} (h : s.sp.toNat ≤ 15) : ∃ t, StepTo s t := by
  cases hrun : s.fault with
  | some f => exact ⟨s, .halted f hrun⟩
  | none =>
    by_cases hpc : s.pc.toNat ≤ 0xFFE
    case neg => exact ⟨_, .unfetchable hrun (Nat.lt_of_not_le hpc)⟩
    case pos =>
      cases hdec : decodeWord (s.wordAt s.pc.toNat) with
      | error e => exact ⟨_, .unmatched e hrun hpc hdec⟩
      | ok i =>
        cases hfault : faultOf i s with
        | none => exact ⟨_, .completes i hrun hpc hdec (not_stuck_of_sp_le h i) hfault⟩
        | some f => exact ⟨_, .faults i f hrun hpc hdec hfault⟩

end Sys2Proof.Machine
end

section
/-! SUPPORT. `ST` is not observed: no fault, no stop and no completed instruction reads it. -/

namespace Sys2Proof.Machine

theorem faultOf_setST (i : Instr) (s : State) (b : Byte) : faultOf i (s.setST b) = faultOf i s := by
  cases i <;> rfl

theorem stuck_setST (i : Instr) (s : State) (b : Byte) : stuck i (s.setST b) = stuck i s := by
  cases i <;> rfl

/-- `Fx18` overwrites `ST`; every other instruction leaves it as it was. -/
theorem completed_setST (i : Instr) (s : State) (a : Byte) :
    ∃ b, completed i (s.setST a) = (completed i s).setST b := by
  cases i with
  | ldStVx x => exact ⟨s.reg x, rfl⟩
  | _ => exact ⟨a, rfl⟩

theorem StepTo.setST {s t : State} (h : StepTo s t) (a : Byte) : ∃ b, StepTo (s.setST a) (t.setST b) := by
  cases h with
  | halted f hhalt => exact ⟨a, .halted f hhalt⟩
  | unfetchable hrun hpc => exact ⟨a, .unfetchable hrun hpc⟩
  | unmatched e hrun hpc hdec => exact ⟨a, .unmatched e hrun hpc hdec⟩
  | completes i hrun hpc hdec hstuck hfault =>
    obtain ⟨b, hb⟩ := completed_setST i (s.setDrawReq false) a
    have hstep : StepTo (s.setST a) (completed i ((s.setDrawReq false).setST a)) :=
      .completes i hrun hpc hdec (by rwa [stuck_setST]) (by rwa [faultOf_setST])
    exact ⟨b, hb ▸ hstep⟩
  | faults i f hrun hpc hdec hfault => exact ⟨a, .faults i f hrun hpc hdec (by rwa [faultOf_setST])⟩

end Sys2Proof.Machine
end

section
/-! PROOFS. The statements about every step (30_encoding.md R39, 60_exceptions.md R88, R89, 10_state.md R14, R22). -/

namespace Sys2Proof.Machine

/-- Decoding two bytes and what follows them is decoding their word. -/
theorem decodeWord_of_decode {hi lo : Byte} {rest : List Byte} {i : Instr}
    (h : decode (hi :: lo :: rest) = .ok (i, rest)) : decodeWord (wordOfBytes hi lo) = .ok i := by
  unfold decode at h
  cases hdec : decodeWord (wordOfBytes hi lo) with
  | ok j =>
    simp only [hdec] at h
    cases h
    rfl
  | error e =>
    simp only [hdec] at h
    cases h

/-- Settles O7. The bytes after the first two are not looked at, so what decodes is the word that is fetched. -/
theorem stepRunsDecodedInstruction : Obligations.StepRunsDecodedInstruction :=
  fun _ _ _ hrun hpc hdec => step_of_decodeWord hrun hpc (decodeWord_of_decode hdec)

/-- Settles O9. The range check stands before the first read of memory. -/
theorem fetchOutOfRangeFaults : Obligations.FetchOutOfRangeFaults :=
  fun _ hrun hpc => ⟨step_of_unfetchable hrun hpc, rfl⟩

/-- Settles O11. Of the ways a step can go, only the two that halt the core change the latch. -/
theorem faultsArePrecise : Obligations.FaultsArePrecise := by
  intro s t h hchanged
  cases stepTo_of_step h with
  | halted | unmatched => exact absurd rfl hchanged
  | completes i => exact absurd (fault_completed i _) hchanged
  | unfetchable | faults => rfl

/-- Settles O24. A halted or faulting step leaves the latch set; of the others only a display instruction sets
`draw_req`, which the step has cleared before. -/
theorem drawRequestExactlyForDisplay : Obligations.DrawRequestExactlyForDisplay := by
  intro s t hrun h
  cases stepTo_of_step h with
  | halted f hhalt => rw [hrun] at hhalt; cases hhalt
  | unfetchable | faults => exact ⟨nofun, fun ⟨hclear, _⟩ => nomatch hclear⟩
  | unmatched e _ hpc hdec =>
    refine ⟨nofun, ?_⟩
    rintro ⟨-, -, i, hi, -⟩
    rw [hdec] at hi
    cases hi
  | completes i _ hpc hdec =>
    constructor
    case mp =>
      intro hd
      refine ⟨(fault_completed i _).trans hrun, hpc, i, hdec, ?display⟩
      case display =>
        by_contra hother
        rw [drawReq_completed_other _ hother] at hd
        cases hd
    case mpr =>
      rintro ⟨-, -, j, hj, hdisplay⟩
      cases hdec.symm.trans hj
      exact drawReq_completed_display _ hdisplay

/-- Settles O25. The step with the other `ST` goes the same way, case by case. -/
theorem soundTimerNeverObserved : Obligations.SoundTimerNeverObserved := by
  intro s t a h
  obtain ⟨b, hb⟩ := (stepTo_of_step h).setST a
  exact ⟨b, step_of_stepTo hb⟩

end Sys2Proof.Machine
end

section
/-! SUPPORT. The invariant `Inv`: each field after a completed instruction, the latch after a fault, and the events. -/

namespace Sys2Proof.Machine

/-! ### The program counter -/

theorem toNat_add_two {w : Word} (h : w.toNat ≤ 0xFFE) : (w + 2).toNat = w.toNat + 2 := by
  bv_omega

theorem toNat_add_four {w : Word} (h : w.toNat ≤ 0xFFE) : (w + 4).toNat = w.toNat + 4 := by
  bv_omega

/-- `nnn + V0` never wraps (40_control_flow.md R56). -/
theorem toNat_offsetTarget (nnn : Addr12) (s : State) : (offsetTarget nnn s).toNat = nnn.toNat + (s.reg 0).toNat := by
  have hn := nnn.isLt
  have hv := (s.reg 0).isLt
  rw [offsetTarget, BitVec.toNat_add, BitVec.toNat_setWidth_of_le (by decide), BitVec.toNat_setWidth_of_le (by decide)]
  omega

theorem State.pc_advance_le {s : State} (h : s.pc.toNat ≤ 0xFFE) : s.advance.pc.toNat ≤ 0x10FE := by
  rw [State.pc_advance, toNat_add_two h]
  omega

theorem State.pc_skipIf_le {s : State} (h : s.pc.toNat ≤ 0xFFE) (c : Bool) : (s.skipIf c).pc.toNat ≤ 0x10FE := by
  rw [State.pc_skipIf]
  split
  · rw [toNat_add_four h]; omega
  · rw [toNat_add_two h]; omega

theorem pc_afterWait_le {s : State} (h : s.pc.toNat ≤ 0xFFE) (x : Reg) : (afterWait x s).pc.toNat ≤ 0x10FE := by
  cases hk : s.leastHeld with
  | none => rw [afterWait_of_none hk]; omega
  | some k => rw [afterWait_of_held hk]; exact State.pc_advance_le h

theorem State.top_le {s : State} (hsp : s.sp.toNat ≤ 15) (hstack : ∀ k : Fin 16, (s.stack[k]).toNat ≤ 0xFFE) :
    s.top.toNat ≤ 0xFFE := by
  have hlt : s.sp.toNat < 16 := Nat.lt_succ_of_le hsp
  rw [State.top, Vector.getElem?_eq_getElem hlt, Option.getD_some]
  exact hstack ⟨_, hlt⟩

theorem pc_completed_le {s : State} (hinv : Inv s) (hpc : s.pc.toNat ≤ 0xFFE) (i : Instr) :
    (completed i s).pc.toNat ≤ 0x10FE := by
  cases i with
  | ret =>
    have htop := State.top_le hinv.spLegal hinv.stackRange
    exact (toNat_add_two htop).trans_le (by omega)
  | jp nnn | call nnn => exact (toNat_addressOf_le nnn).trans (by decide)
  | jpV0 nnn =>
    have hn := nnn.isLt
    have hv := (s.reg 0).isLt
    exact (toNat_offsetTarget nnn s).trans_le (by omega)
  | seImm | sneImm | seReg | sneReg | skp | sknp => exact State.pc_skipIf_le hpc _
  | ldVxK x => exact pc_afterWait_le hpc x
  | _ => exact State.pc_advance_le (s := s) hpc

/-! ### The stack -/

theorem toNat_sub_one {b : Byte} (h : b ≠ 0) : (b - 1).toNat = b.toNat - 1 := by
  bv_omega

theorem toNat_add_one {b : Byte} (h : b.toNat < 15) : (b + 1).toNat = b.toNat + 1 := by
  bv_omega

theorem sp_completed_le {s : State} (hsp : s.sp.toNat ≤ 15) {i : Instr} (hfault : faultOf i s = none) :
    (completed i s).sp.toNat ≤ 15 := by
  cases i with
  | ret => exact (toNat_sub_one (faultOf_ret_eq_none.mp hfault)).trans_le (by omega)
  | call nnn =>
    have hfull := faultOf_call_eq_none.mp hfault
    exact (toNat_add_one (by omega)).trans_le (by omega)
  | _ => exact hsp

theorem stack_completed_le {s : State} (hinv : Inv s) (hpc : s.pc.toNat ≤ 0xFFE) (i : Instr) (k : Fin 16) :
    ((completed i s).stack[k]).toNat ≤ 0xFFE := by
  cases i with
  | call nnn =>
    show ((s.stack.setIfInBounds (s.sp.toNat + 1) s.pc)[k.val]).toNat ≤ 0xFFE
    rw [Vector.getElem_setIfInBounds]
    split
    · exact hpc
    · exact hinv.stackRange k
  | _ => exact hinv.stackRange k

/-! ### Memory -/

theorem range_of_faultOf {i : Instr} {s : State} (hfault : faultOf i s = none) :
    i.bytesStored = 0 ∨ baseAddress s + i.bytesStored ≤ Config.memSize := by
  cases i with
  | ldB | stRegs => exact rangeFault_eq_none.mp hfault
  | _ => exact .inl rfl

theorem memWf_completed {s : State} (hwf : s.mem.wf) {i : Instr} (hfault : faultOf i s = none) :
    (completed i s).mem.wf := by
  rw [mem_completed]
  obtain hnone | hrange := range_of_faultOf hfault
  · rwa [List.eq_nil_of_length_eq_zero ((length_bytesOf i s).trans hnone)]
  · exact Memory.writeBytes_wf _ hwf (by rwa [length_bytesOf])

/-! ### The latch -/

theorem latchTrue_of_running {s : State} (h : s.fault = none) : latchTrue s := by
  rw [latchTrue, h]
  trivial

/-- What an instruction records is what its fault's rule says (60_exceptions.md R90 to R93). -/
theorem latchTrue_halt {i : Instr} {s : State} {f : FaultRecord} (h : faultOf i s = some f) : latchTrue (s.halt f) := by
  cases i with
  | ret =>
    obtain ⟨hsp, rfl⟩ := faultOf_ret_eq_some.mp h
    exact ⟨rfl, rfl, hsp⟩
  | call =>
    obtain ⟨hsp, rfl⟩ := faultOf_call_eq_some.mp h
    exact ⟨rfl, rfl, BitVec.eq_of_toNat_eq hsp⟩
  | drw | ldB | stRegs | ldRegs =>
    obtain ⟨-, rfl⟩ := rangeFault_eq_some.mp h
    exact ⟨rfl, rfl⟩
  | skp x | sknp x =>
    obtain ⟨hk, rfl⟩ := keyFault_eq_some.mp h
    exact ⟨rfl, hk, Nat.le_of_lt_succ (s.reg x).isLt⟩
  | _ => cases h

/-! ### A step -/

theorem Inv.setDrawReq {s : State} (h : Inv s) (hrun : s.fault = none) (b : Bool) : Inv (s.setDrawReq b) :=
  ⟨h.memWf, h.spLegal, h.pcRange, h.stackRange, latchTrue_of_running hrun⟩

theorem Inv.halt {s : State} (h : Inv s) {f : FaultRecord} (hlatch : latchTrue (s.halt f)) : Inv (s.halt f) :=
  ⟨h.memWf, h.spLegal, h.pcRange, h.stackRange, hlatch⟩

theorem Inv.completed {s : State} (h : Inv s) (hrun : s.fault = none) (hpc : s.pc.toNat ≤ 0xFFE) {i : Instr}
    (hfault : faultOf i s = none) : Inv (completed i s) where
  memWf := memWf_completed h.memWf hfault
  spLegal := sp_completed_le h.spLegal hfault
  pcRange := pc_completed_le h hpc i
  stackRange := stack_completed_le h hpc i
  latch := latchTrue_of_running ((fault_completed i s).trans hrun)

theorem Inv.stepTo {s t : State} (h : Inv s) (hstep : StepTo s t) : Inv t := by
  cases hstep with
  | halted => exact h
  | unfetchable _ hpc => exact h.halt ⟨rfl, rfl, hpc⟩
  | unmatched _ hrun => exact h.setDrawReq hrun false
  | completes i hrun hpc _ _ hfault =>
    exact (h.setDrawReq hrun false).completed hrun hpc (by rwa [faultOf_setDrawReq])
  | faults _ _ _ _ _ hfault => exact h.halt (latchTrue_halt hfault)

/-! ### The other events -/

theorem inv_reset : Inv State.reset where
  memWf := Memory.wf_nil
  spLegal := by decide
  pcRange := by decide
  stackRange := by decide
  latch := latchTrue_of_running rfl

theorem inv_hostReset (s : State) : Inv (hostReset s) :=
  ⟨inv_reset.memWf, inv_reset.spLegal, inv_reset.pcRange, inv_reset.stackRange, inv_reset.latch⟩

theorem Inv.hostLoad {s : State} (h : Inv s) (a : Addr12) (b : Byte) : Inv (hostLoad a b s) :=
  ⟨hostLoad_memWf a b h.memWf, h.spLegal, h.pcRange, h.stackRange, h.latch⟩

theorem Inv.hostKeys {s : State} (h : Inv s) (k : Vector Bool 16) : Inv (hostKeys k s) :=
  ⟨h.memWf, h.spLegal, h.pcRange, h.stackRange, h.latch⟩

theorem Inv.tick {s : State} (h : Inv s) : Inv (tick s) :=
  ⟨h.memWf, h.spLegal, h.pcRange, h.stackRange, h.latch⟩

/-- Every event of a state that meets the invariant answers a state that meets it. -/
theorem Inv.applyEvent {s : State} (h : Inv s) (e : Event) : ∃ t, applyEvent e s = .next t ∧ Inv t := by
  cases e with
  | reset => exact ⟨_, rfl, inv_hostReset s⟩
  | loadByte a b => exact ⟨_, rfl, h.hostLoad a b⟩
  | keys k => exact ⟨_, rfl, h.hostKeys k⟩
  | step =>
    obtain ⟨t, ht⟩ := exists_stepTo h.spLegal
    exact ⟨t, step_of_stepTo ht, h.stepTo ht⟩
  | tick => exact ⟨_, rfl, h.tick⟩

end Sys2Proof.Machine
end

section
/-! PROOFS. The statements about the invariant. -/

namespace Sys2Proof.Machine

/-- Settles O17, field by field. -/
theorem resetMeetsInvariant : Obligations.ResetMeetsInvariant := inv_reset

/-- Settles O18, a case for each way a step can go. -/
theorem stepKeepsInvariant : Obligations.StepKeepsInvariant := fun _ _ h hstep => h.stepTo (stepTo_of_step hstep)

/-- Settles O19. The model stops only where `sp` is no legal value. -/
theorem everyStepCompletes : Obligations.EveryStepCompletes := by
  intro s h
  obtain ⟨t, ht⟩ := exists_stepTo h.spLegal
  exact ⟨t, step_of_stepTo ht⟩

/-- Settles O20, by the induction over runs. -/
theorem everyRunCompletesAndKeepsInvariant : Obligations.EveryRunCompletesAndKeepsInvariant :=
  fun _ _ h => runEvents_keeps (fun e _ _ hs => hs.applyEvent e) h

end Sys2Proof.Machine
end

section
/-! SUPPORT. Runs of steps, ticks and key writes, and the schedules a host keeps to. -/

namespace Sys2Proof.Machine

/-! ### Running events -/

/-- What steps, ticks and key writes keep, every run of them keeps. -/
theorem runEvents_running_keeps {P : State → Prop} (hstep : ∀ s, P s → ∃ t, step s = .next t ∧ P t)
    (htick : ∀ s, P s → P (tick s)) (hkeys : ∀ s k, P s → P (hostKeys k s)) {events : List Event}
    (hrunning : ∀ e ∈ events, e.running = true) {s : State} (hs : P s) : ∃ t, runEvents events s = .next t ∧ P t := by
  refine runEvents_keeps (fun e he s hs => ?event) hs
  case event =>
    cases e with
    | step => exact hstep s hs
    | tick => exact ⟨_, rfl, htick s hs⟩
    | keys k => exact ⟨_, rfl, hkeys s k hs⟩
    | reset | loadByte => cases hrunning _ he

/-- The states that differ from `s` at most in the timers, the key latches and `draw_req`. -/
def State.StandsAt (s t : State) : Prop := t = { s with dt := t.dt, st := t.st, key := t.key, drawReq := t.drawReq }

theorem State.StandsAt.refl (s : State) : s.StandsAt s := rfl

theorem State.StandsAt.tick {s t : State} (h : s.StandsAt t) : s.StandsAt (tick t) := by
  rw [h]; rfl

theorem State.StandsAt.hostKeys {s t : State} (h : s.StandsAt t) (k : Vector Bool 16) : s.StandsAt (hostKeys k t) := by
  rw [h]; rfl

theorem State.StandsAt.setDrawReq {s t : State} (h : s.StandsAt t) (b : Bool) : s.StandsAt (t.setDrawReq b) := by
  rw [h]; rfl

/-- If a step answers the same state with `draw_req` 0 wherever the core stands at `s`, no run moves it from `s`. -/
theorem runEvents_standsAt {s : State} (hstep : ∀ t, s.StandsAt t → step t = .next (t.setDrawReq false))
    {events : List Event} (hrunning : ∀ e ∈ events, e.running = true) :
    ∃ t, runEvents events s = .next t ∧ s.StandsAt t :=
  runEvents_running_keeps (fun t ht => ⟨_, hstep t ht, ht.setDrawReq false⟩) (fun _ ht => ht.tick)
    (fun _ k ht => ht.hostKeys k) hrunning (.refl s)

/-- What a step fetches does not depend on the timers, the key latches and `draw_req`. -/
theorem State.StandsAt.fetch {s t : State} (h : s.StandsAt t) :
    t.fault = s.fault ∧ t.pc = s.pc ∧ t.wordAt t.pc.toNat = s.wordAt s.pc.toNat := by
  rw [h]; exact ⟨rfl, rfl, rfl⟩

/-- The states that differ from `s` at most in the timers and the key latches: what ticks and key writes alone reach. -/
def State.UntouchedByCore (s t : State) : Prop := t = { s with dt := t.dt, st := t.st, key := t.key }

theorem State.UntouchedByCore.tick {s t : State} (h : s.UntouchedByCore t) : s.UntouchedByCore (tick t) := by
  rw [h]; rfl

theorem State.UntouchedByCore.hostKeys {s t : State} (h : s.UntouchedByCore t) (k : Vector Bool 16) :
    s.UntouchedByCore (hostKeys k t) := by
  rw [h]; rfl

theorem State.UntouchedByCore.fault {s t : State} (h : s.UntouchedByCore t) : t.fault = s.fault := by
  rw [h]

/-- A jump to itself: the step answers the same state with `draw_req` 0. -/
theorem step_of_jump_to_self {s : State} {nnn : Addr12} (hrun : s.fault = none) (hpc : s.pc.toNat ≤ 0xFFE)
    (hdec : decodeWord (s.wordAt s.pc.toNat) = .ok (.jp nnn)) (hself : s.pc = addressOf nnn) :
    step s = .next (s.setDrawReq false) := by
  rw [step_of_decodeWord hrun hpc hdec]
  show Host.Outcome.next ((s.setDrawReq false).setPc (addressOf nnn)) = _
  rw [← hself]
  rfl

/-! ### The load of a program, and the schedules a host keeps to -/

theorem loadProgram_of_le {program : List Byte} (h : program.length ≤ 3584) (s : State) :
    loadProgram program s = .next (s.setMem (s.mem.writeBytes 0x200 program)) :=
  if_neg (Nat.not_lt.mpr h)

theorem hostKeepsTo_of_running {events : List Event} (h : ∀ e ∈ events, e.running = true) (started : Bool) :
    hostKeepsTo started events = true := by
  induction events generalizing started with
  | nil => rfl
  | cons e rest ih =>
    have hrest := ih fun e he => h e (List.mem_cons_of_mem _ he)
    cases e with
    | reset | loadByte => cases h _ List.mem_cons_self
    | keys | tick => exact hrest started
    | step => exact hrest true

/-- Before the first step the load port is open. -/
theorem hostKeepsTo_loads (loads : List (Addr12 × Byte)) (events : List Event) :
    hostKeepsTo false (loads.map (fun l => .loadByte l.1 l.2) ++ events) = hostKeepsTo false events := by
  induction loads with
  | nil => rfl
  | cons l rest ih => exact ih

/-- After the first step, and until a reset, it is closed. -/
theorem hostKeepsTo_load_after_step {events : List Event} (h : ∀ e ∈ events, e.running = true) (a : Addr12) (b : Byte) :
    hostKeepsTo true (events ++ [.loadByte a b]) = false := by
  induction events with
  | nil => rfl
  | cons e rest ih =>
    have hrest := ih fun e he => h e (List.mem_cons_of_mem _ he)
    cases e with
    | reset | loadByte => cases h _ List.mem_cons_self
    | keys | tick | step => exact hrest

/-- What comes before does not make up for a schedule that is refused whether or not a step has been taken. -/
theorem hostKeepsTo_append_of_refused {events : List Event} (h : ∀ started, hostKeepsTo started events = false)
    (before : List Event) (started : Bool) : hostKeepsTo started (before ++ events) = false := by
  induction before generalizing started with
  | nil => exact h started
  | cons e rest ih =>
    cases e with
    | reset => exact ih false
    | loadByte => exact Bool.and_eq_false_imp.mpr fun _ => ih started
    | keys | tick => exact ih started
    | step => exact ih true

end Sys2Proof.Machine
end

section
/-! PROOFS. The statements about runs, reset and the host's writes (30_encoding.md R47, 60_exceptions.md R88,
70_reset_and_hazards.md). -/

namespace Sys2Proof.Machine

/-- Settles O8. No running event changes what is fetched, so every step meets the same unmatched word. -/
theorem unmatchedWordHangs : Obligations.UnmatchedWordHangs := by
  intro s e hrun hpc hdec
  refine ⟨step_of_unmatched hrun hpc hdec, fun events hrunning => runEvents_standsAt (fun t ht => ?hang) hrunning⟩
  case hang =>
    obtain ⟨hfault, hpc', hword⟩ := ht.fetch
    exact step_of_unmatched (hfault.trans hrun) (hpc' ▸ hpc) (hword ▸ hdec)

/-- Settles O60. No running event changes what is fetched, so every step jumps to where it is. -/
theorem jumpToSelfIsFinished : Obligations.JumpToSelfIsFinished := by
  intro s nnn hrun hpc hdec hself events hrunning
  have hself : s.pc = addressOf nnn := BitVec.eq_of_toNat_eq (hself.trans (toNat_addressOf nnn).symm)
  refine runEvents_standsAt (fun t ht => ?jump) hrunning
  case jump =>
    obtain ⟨hfault, hpc', hword⟩ := ht.fetch
    exact step_of_jump_to_self (hfault.trans hrun) (hpc' ▸ hpc) (hword ▸ hdec) (hpc'.trans hself)

/-- Settles O10. The step of a halted core is the identity, whatever ticks and key writes have done since. -/
theorem haltedUntilReset : Obligations.HaltedUntilReset := by
  intro s f hhalt
  refine ⟨step_of_halted hhalt, fun events hrunning => ?run, ?tick, fun k => ⟨_, rfl, rfl⟩, ⟨_, rfl, rfl⟩⟩
  case run =>
    exact runEvents_running_keeps (P := s.UntouchedByCore)
      (fun t ht => ⟨t, step_of_halted (ht.fault.trans hhalt), ht⟩) (fun _ ht => ht.tick) (fun _ k ht => ht.hostKeys k)
      hrunning rfl
  case tick => exact ⟨_, rfl, toNat_countDown s.dt, toNat_countDown s.st⟩

/-- Settles O14. The load is one block write, and after an empty one the reset state steps to itself on the word 0. -/
theorem programLoad : Obligations.ProgramLoad := by
  intro program s
  refine ⟨fun hlen => ?fits, fun hlen => if_pos hlen, ?empty⟩
  case fits =>
    refine ⟨_, loadProgram_of_le hlen s, fun k hk => ?inside, fun a ha => ?outside, rfl⟩
    case inside =>
      rw [State.mem_setMem, Memory.read_writeBytes, if_pos (by omega), Nat.add_sub_cancel_left]
      simp [hk]
    case outside => rw [State.mem_setMem, Memory.read_writeBytes, if_neg (by omega)]
  case empty =>
    have hrun : State.reset.fault = none := rfl
    exact ⟨State.reset, rfl, step_of_unmatched (e := .unmatched 0) hrun (by decide) (by decide)⟩

/-- Settles O15, by what each event does to the host's record of a step taken. -/
theorem loadPortClosesAtFirstStep : Obligations.LoadPortClosesAtFirstStep := by
  intro s loads before events a b hrunning
  have hopen : hostKeepsTo false (.reset :: (loads.map (fun l => .loadByte l.1 l.2) ++ events)) = true :=
    (hostKeepsTo_loads loads events).trans (hostKeepsTo_of_running hrunning false)
  have hclosed : hostKeepsTo false (before ++ .step :: (events ++ [.loadByte a b])) = false :=
    hostKeepsTo_append_of_refused (events := .step :: _) (fun _ => hostKeepsTo_load_after_step hrunning a b) before _
  exact ⟨if_pos hopen, if_neg (Bool.eq_false_iff.mp hclosed)⟩

/-- Settles O16, the rule of one byte written. -/
theorem hostWritesTouchOnlyTheirTarget : Obligations.HostWritesTouchOnlyTheirTarget :=
  fun s a b _ =>
    ⟨⟨_, rfl, s.mem.read_write_self a.toNat b, fun _ hc => s.mem.read_write_other b hc, rfl⟩, rfl⟩

end Sys2Proof.Machine
end

section
/-! SUPPORT. The bytes of memory after a completed instruction, and the transfers when their addresses exist. -/

namespace Sys2Proof.Machine

theorem read_completed_inside {i : Instr} {k : Nat} (s : State) (hk : k < i.bytesStored) :
    (completed i s).mem.read (baseAddress s + k) = (bytesOf i s).getD k 0 := by
  rw [mem_completed, Memory.read_writeBytes, length_bytesOf, if_pos (by omega), Nat.add_sub_cancel_left]

theorem read_completed_outside {i : Instr} {a : Nat} (s : State)
    (ha : a < baseAddress s ∨ baseAddress s + i.bytesStored ≤ a) : (completed i s).mem.read a = s.mem.read a := by
  rw [mem_completed, Memory.read_writeBytes, length_bytesOf, if_neg (by omega)]

theorem rangeFault_of_le {n : Nat} {s : State} (h : s.i.toNat + n ≤ 0xFFF) : rangeFault (n + 1) s = none :=
  rangeFault_eq_none.mpr (.inr (Nat.succ_le_succ h))

theorem rangeFault_of_gt {n : Nat} {s : State} (h : s.i.toNat + n > 0xFFF) :
    rangeFault (n + 1) s = some ⟨.memOutOfRange, max s.i.toNat 0x1000⟩ :=
  rangeFault_eq_some.mpr ⟨by simp only [baseAddress]; omega, rfl⟩

theorem exec_ldB_of_le {x : Reg} {s : State} (h : s.i.toNat + 2 ≤ 0xFFF) :
    exec (.ldB x) s = .next (completed (.ldB x) s) :=
  exec_completes id (rangeFault_of_le h)

theorem exec_stRegs_of_le {x : Reg} {s : State} (h : s.i.toNat + x.val ≤ 0xFFF) :
    exec (.stRegs x) s = .next (completed (.stRegs x) s) :=
  exec_completes id (rangeFault_of_le h)

theorem exec_ldRegs_of_le {x : Reg} {s : State} (h : s.i.toNat + x.val ≤ 0xFFF) :
    exec (.ldRegs x) s = .next (completed (.ldRegs x) s) :=
  exec_completes id (rangeFault_of_le h)

theorem read_completed_stRegs {x k : Reg} (s : State) (hk : k ≤ x) :
    (completed (.stRegs x) s).mem.read (baseAddress s + k.val) = s.reg k :=
  (read_completed_inside s (Nat.lt_succ_of_le hk)).trans (s.getD_regsUpTo x k hk)

theorem reg_completed_ldRegs_le {x k : Reg} (s : State) (hk : k ≤ x) :
    (completed (.ldRegs x) s).reg k = s.mem.read (baseAddress s + k.val) := by
  have hlt : k.val < x.val + 1 := Nat.lt_succ_of_le hk
  refine (s.reg_loadRegs _ k).trans ?_
  rw [Memory.length_readBytes, if_pos hlt, Memory.getD_readBytes _ _ hlt]

theorem reg_completed_ldRegs_gt {x k : Reg} (s : State) (hk : x < k) : (completed (.ldRegs x) s).reg k = s.reg k :=
  reg_completed_of_not_written s (decide_eq_false (not_le_of_gt hk))

/-! ### The origin of a sprite, and the rows it reads -/

theorem originColumn_eq (b : Byte) : originColumn b = b.toNat % 64 := by
  rw [originColumn, BitVec.toNat_and]
  exact Nat.and_two_pow_sub_one_eq_mod b.toNat 6

theorem originRow_eq (b : Byte) : originRow b = b.toNat % 32 := by
  rw [originRow, BitVec.toNat_and]
  exact Nat.and_two_pow_sub_one_eq_mod b.toNat 5

theorem faultOf_drw_eq_none {x y : Reg} {n : Nat} {s : State} :
    faultOf (.drw x y n) s = none ↔ SpriteInMemory s (originRow (s.reg y)) n :=
  rangeFault_eq_none

theorem faultOf_drw_of_not_inMemory {x y : Reg} {n : Nat} {s : State}
    (h : ¬ SpriteInMemory s (originRow (s.reg y)) n) :
    faultOf (.drw x y n) s = some ⟨.memOutOfRange, max s.i.toNat 0x1000⟩ :=
  rangeFault_eq_some.mpr ⟨h, rfl⟩

/-! ### Decimal digits -/

theorem toNat_digits (b : Byte) :
    (trunc8 (b.toNat / 100)).toNat = b.toNat / 100 ∧ (trunc8 (b.toNat / 10 % 10)).toNat = b.toNat / 10 % 10 ∧
      (trunc8 (b.toNat % 10)).toNat = b.toNat % 10 := by
  have hb := b.isLt
  simp only [toNat_trunc8]
  omega

theorem decimalDigits_sum (b : Byte) :
    ((decimalDigits b).getD 0 0).toNat * 100 + ((decimalDigits b).getD 1 0).toNat * 10 +
      ((decimalDigits b).getD 2 0).toNat = b.toNat := by
  obtain ⟨h0, h1, h2⟩ := toNat_digits b
  show (trunc8 (b.toNat / 100)).toNat * 100 + (trunc8 (b.toNat / 10 % 10)).toNat * 10 +
    (trunc8 (b.toNat % 10)).toNat = _
  rw [h0, h1, h2]
  omega

theorem decimalDigits_le_nine (b : Byte) : ∀ k < 3, ((decimalDigits b).getD k 0).toNat ≤ 9 := by
  obtain ⟨h0, h1, h2⟩ := toNat_digits b
  have hb := b.isLt
  intro k hk
  match k with
  | 0 => exact h0.trans_le (by omega)
  | 1 => exact h1.trans_le (by omega)
  | 2 => exact h2.trans_le (by omega)

end Sys2Proof.Machine
end

section
/-! PROOFS. The statements of 42_index_memory.md: the transfers between registers and memory; 20_memory.md R38. -/

namespace Sys2Proof.Machine

/-- Settles O46. What is stored are the digits, and they make up the byte. -/
theorem storeDecimalDigits : Obligations.StoreDecimalDigits := by
  intro x s hrange
  have hread : ∀ k < 3,
      (completed (.ldB x) s).mem.read (baseAddress s + k) = (decimalDigits (s.reg x)).getD k 0 :=
    fun k hk => read_completed_inside s hk
  refine ⟨_, exec_ldB_of_le hrange, ?sum, fun k hk => ?digit, fun a ha => read_completed_outside s ha, rfl⟩
  case sum =>
    rw [← decimalDigits_sum (s.reg x), ← hread 0 (by decide), ← hread 1 (by decide), ← hread 2 (by decide)]
    rfl
  case digit =>
    rw [hread k hk]
    exact decimalDigits_le_nine _ k hk

/-- Settles O47. Byte `k` of what is stored is `V[k]`. -/
theorem storeRegisters : Obligations.StoreRegisters :=
  fun _ s hrange =>
    ⟨_, exec_stRegs_of_le hrange, fun _ hk => read_completed_stRegs s hk, fun _ ha => read_completed_outside s ha, rfl⟩

/-- Settles O48. Byte `k` of what is read goes to `V[k]`, and there are `x + 1` of them. -/
theorem loadRegisters : Obligations.LoadRegisters :=
  fun _ s hrange =>
    ⟨_, exec_ldRegs_of_le hrange, fun _ hk => reg_completed_ldRegs_le s hk,
      fun _ hk => reg_completed_ldRegs_gt s hk, rfl⟩

/-- Settles O49, from the store and the load: neither moves `I`, so the load reads the bytes just stored. -/
theorem storeThenLoadRestoresRegisters : Obligations.StoreThenLoadRestoresRegisters := by
  intro x s v hrange
  obtain ⟨t, hstore, hbytes, -, hframe⟩ := storeRegisters x s hrange
  have hi : t.i = s.i := by rw [hframe]
  obtain ⟨u, hload, hlow, hhigh, hframe'⟩ := loadRegisters x { t with v := v } (by rwa [← hi] at hrange)
  refine ⟨t, u, hstore, hload, fun k hk => ?loaded, hhigh, ?index⟩
  case loaded =>
    rw [hlow k hk, ← hbytes k hk, baseAddress, baseAddress, hi]
  case index => rw [hframe', hi]

/-- Settles O50. The range check of each of the four instructions raises the fault before anything is done. -/
theorem memoryRangeFaults : Obligations.MemoryRangeFaults := by
  rintro s _ rfl
  refine ⟨rfl, fun x hx => exec_faults (rangeFault_of_gt hx),
    fun x hx => ⟨exec_faults (rangeFault_of_gt hx), exec_faults (rangeFault_of_gt hx)⟩, fun x y n hn => ?draw⟩
  case draw => exact exec_faults (faultOf_drw_of_not_inMemory (by rwa [originRow_eq]))

/-- Settles O51. The two registers lie side by side in memory, so the word fetched there is theirs. -/
theorem storesSeenByNextFetch : Obligations.StoresSeenByNextFetch := by
  intro x k j s t i hrange hrun hj hjx hstore hdec u hu
  cases (exec_stRegs_of_le hrange).symm.trans hstore
  have hjx' : j.val ≤ x.val := hjx
  have hkx : k ≤ x := Fin.le_def.mpr (by omega)
  have hpc : u.pc.toNat = baseAddress s + k.val := by
    rw [hu]
    exact (BitVec.toNat_ofNat _ 16).trans (Nat.mod_eq_of_lt (by omega))
  have hword : u.wordAt u.pc.toNat = wordOfBytes (s.reg k) (s.reg j) := by
    rw [State.wordAt, hpc, Nat.add_assoc, ← hj, hu]
    exact congrArg₂ wordOfBytes (read_completed_stRegs s hkx) (read_completed_stRegs s hjx)
  refine step_of_decodeWord ?running ?fetchable (hword ▸ hdec)
  case running => rw [hu]; exact (fault_completed _ s).trans hrun
  case fetchable => rw [hpc, baseAddress]; omega

end Sys2Proof.Machine
end

section
/-! SUPPORT. A whole `Dxyn`: the sprite it reads, the pixels it leaves and the collision it finds, in the terms of
43_display.md R77 and R79. -/

namespace Sys2Proof.Machine

theorem length_spriteRows (y : Reg) (n : Nat) (s : State) :
    (spriteRows y n s).length = min n (32 - originRow (s.reg y)) :=
  Memory.length_readBytes _ _ _

/-- The rows drawn stay within the framebuffer. -/
theorem originRow_add_length_le (y : Reg) (n : Nat) (s : State) :
    originRow (s.reg y) + (spriteRows y n s).length ≤ 32 := by
  have hrow : originRow (s.reg y) < 32 := originRow_eq (s.reg y) ▸ Nat.mod_lt _ (by decide)
  rw [length_spriteRows]
  omega

theorem getD_spriteRows {y : Reg} {n k : Nat} {s : State} (hk : k < min n (32 - originRow (s.reg y))) :
    (spriteRows y n s).getD k 0 = s.mem.read (s.i.toNat + k) :=
  Memory.getD_readBytes _ _ hk

/-- On the screen, the bits of the rows that are read are those of the sprite. -/
theorem rowsBit_spriteRows (y : Reg) (n x0 : Nat) (s : State) {px py : Nat} (hx : px < 64) (hy : py < 32) :
    rowsBit x0 (originRow (s.reg y)) (spriteRows y n s) px py = spriteBit s x0 (originRow (s.reg y)) n px py := by
  rw [Bool.eq_iff_iff]
  simp only [rowsBit, spriteBit, Bool.and_eq_true, decide_eq_true_eq, length_spriteRows]
  constructor
  · rintro ⟨⟨⟨⟨⟨hy0, hyn⟩, hx0⟩, hx8⟩, -⟩, hbit⟩
    rw [getD_spriteRows (by omega)] at hbit
    exact ⟨⟨⟨⟨hx0, hx8⟩, hy0⟩, by omega⟩, hbit⟩
  · rintro ⟨⟨⟨⟨hx0, hx8⟩, hy0⟩, hyn⟩, hbit⟩
    rw [getD_spriteRows (by omega)]
    exact ⟨⟨⟨⟨⟨hy0, by omega⟩, hx0⟩, hx8⟩, by omega⟩, hbit⟩

/-- A set bit of the rows that are read lies on the screen. -/
theorem rowsBit_on_screen {y : Reg} {n x0 : Nat} {s : State} {px py : Nat}
    (h : rowsBit x0 (originRow (s.reg y)) (spriteRows y n s) px py = true) : px < 64 ∧ py < 32 := by
  have hlen := originRow_add_length_le y n s
  simp only [rowsBit, Bool.and_eq_true, decide_eq_true_eq] at h
  omega

theorem pixel_drawn (x y : Reg) (n : Nat) (s : State) {px py : Nat} (hx : px < 64) (hy : py < 32) :
    (drawn x y n s).1.pixel px py =
      (s.fb.pixel px py ^^ spriteBit s (originColumn (s.reg x)) (originRow (s.reg y)) n px py) := by
  rw [drawn, pixel_drawRows _ _ _ _ (originRow_add_length_le y n s), rowsBit_spriteRows y n _ s hx hy]

theorem collision_drawn (x y : Reg) (n : Nat) (s : State) :
    (drawn x y n s).2 = true ↔ ∃ px < 64, ∃ py < 32,
      spriteBit s (originColumn (s.reg x)) (originRow (s.reg y)) n px py = true ∧ s.fb.pixel px py = true := by
  rw [drawn, collision_drawRows _ _ _ _ (originRow_add_length_le y n s)]
  constructor
  · rintro (h | ⟨px, py, hbit, hon⟩)
    · cases h
    · obtain ⟨hx, hy⟩ := rowsBit_on_screen hbit
      exact ⟨px, hx, py, hy, rowsBit_spriteRows y n _ s hx hy ▸ hbit, hon⟩
  · rintro ⟨px, hx, py, hy, hbit, hon⟩
    exact .inr ⟨px, py, (rowsBit_spriteRows y n _ s hx hy).trans hbit, hon⟩

/-- A sprite bit depends on memory and `I` only. -/
theorem spriteBit_congr {s t : State} (hmem : t.mem = s.mem) (hi : t.i = s.i) (x0 y0 n px py : Nat) :
    spriteBit t x0 y0 n px py = spriteBit s x0 y0 n px py := by
  rw [spriteBit, spriteBit, hmem, hi]

theorem flagByte_eq_one {b : Bool} : flagByte b = 1 ↔ b = true := by
  cases b <;> decide

theorem reg_vf_completed_drw (x y : Reg) (n : Nat) (s : State) :
    (completed (.drw x y n) s).reg vf = flagByte (drawn x y n s).2 :=
  State.reg_setReg_self _ vf _

end Sys2Proof.Machine
end

section
/-! PROOFS. The statements of 43_display.md: drawing. -/

namespace Sys2Proof.Machine

/-- Settles O53. The rows that are drawn end at the lower edge, and on the screen their bits are the sprite's. -/
theorem drawSprite : Obligations.DrawSprite := by
  rintro x y n x0 y0 s rfl rfl hsprite
  rw [← originColumn_eq, ← originRow_eq] at *
  refine ⟨_, exec_completes id (faultOf_drw_eq_none.mpr hsprite), fun px hx py hy => pixel_drawn x y n s hx hy, ?flag,
    ?collision, fun r hr => reg_completed_of_not_written s (decide_eq_false hr), rfl⟩
  case flag =>
    rw [reg_vf_completed_drw]
    exact (flagByte_eq_zero_or_one _).symm
  case collision => rw [reg_vf_completed_drw, flagByte_eq_one, collision_drawn]

/-- Settles O54, from the first draw and the second: both toggle the same pixels, and a pixel under a sprite bit is on
for the second exactly when it was off for the first. -/
theorem drawTwiceRestores : Obligations.DrawTwiceRestores := by
  intro x y n x0 y0 s t hx0 hy0 hsprite hfirst hx hy
  obtain ⟨t', hfirst', hpixel, -, hflag, -, hframe⟩ := drawSprite x y n x0 y0 s hx0 hy0 hsprite
  cases hfirst.symm.trans hfirst'
  have hmem : t.mem = s.mem := by rw [hframe]
  have hi : t.i = s.i := by rw [hframe]
  obtain ⟨u, hsecond, hpixel', -, hflag', -, -⟩ :=
    drawSprite x y n x0 y0 t (hx ▸ hx0) (hy ▸ hy0) (by rwa [SpriteInMemory, hi])
  simp only [spriteBit_congr hmem hi] at hpixel' hflag'
  refine ⟨u, hsecond, Framebuffer.eq_of_pixel_eq fun px hpx py hpy => ?restored, hflag, hflag'.trans ?secondFlag⟩
  case restored => rw [hpixel' px hpx py hpy, hpixel px hpx py hpy, Bool.xor_assoc, Bool.xor_self, Bool.xor_false]
  case secondFlag =>
    have hon : ∀ px < 64, ∀ py < 32, spriteBit s x0 y0 n px py = true →
        (t.fb.pixel px py = true ↔ s.fb.pixel px py = false) := by
      intro px hpx py hpy hbit
      rw [hpixel px hpx py hpy, hbit, Bool.xor_true, Bool.not_eq_true']
    constructor
    · rintro ⟨px, hpx, py, hpy, hbit, h⟩
      exact ⟨px, hpx, py, hpy, hbit, (hon px hpx py hpy hbit).mp h⟩
    · rintro ⟨px, hpx, py, hpy, hbit, h⟩
      exact ⟨px, hpx, py, hpy, hbit, (hon px hpx py hpy hbit).mpr h⟩

end Sys2Proof.Machine
end

section
/-! SUPPORT. The waiting instruction, the key a register names, and the delay timer after ticks. -/

namespace Sys2Proof.Machine

/-- The least held key, from what makes it so. -/
theorem State.leastHeld_of_least {s : State} {k : Fin 16} (hk : s.held k = true) (hlow : ∀ j < k, s.held j = false) :
    s.leastHeld = some k := by
  cases h : s.leastHeld with
  | none =>
    rw [State.leastHeld_eq_none.mp h k] at hk
    cases hk
  | some l =>
    obtain ⟨hl, hlow'⟩ := State.leastHeld_eq_some h
    obtain hlt | rfl | hgt := lt_trichotomy l k
    · rw [hlow l hlt] at hl
      cases hl
    · rfl
    · rw [hlow' k hgt] at hk
      cases hk

theorem toNat_ofNat_key (k : Fin 16) : (BitVec.ofNat 8 k.val).toNat = k.val := by
  have hk := k.isLt
  rw [BitVec.toNat_ofNat]
  omega

theorem keyHeld_of_key {b : Byte} {k : Fin 16} (h : b.toNat = k.val) (s : State) : keyHeld b s = s.key[k] := by
  rw [keyHeld, h, Vector.getElem?_eq_getElem k.isLt]
  rfl

theorem keyFault_of_key {b : Byte} {k : Fin 16} (h : b.toNat = k.val) : keyFault b = none :=
  keyFault_eq_none.mpr (h.trans_le (Nat.le_of_lt_succ k.isLt))

theorem exec_skp_of_key {x : Reg} {s : State} {k : Fin 16} (h : (s.reg x).toNat = k.val) :
    exec (.skp x) s = .next (s.skipIf s.key[k]) := by
  rw [exec_completes (i := .skp x) id (keyFault_of_key h), completed, keyHeld_of_key h]

theorem exec_sknp_of_key {x : Reg} {s : State} {k : Fin 16} (h : (s.reg x).toNat = k.val) :
    exec (.sknp x) s = .next (s.skipIf !s.key[k]) := by
  rw [exec_completes (i := .sknp x) id (keyFault_of_key h), completed, keyHeld_of_key h]

theorem State.skipIf_frame (s : State) (c : Bool) :
    s.skipIf c = { s with pc := if c = true then s.pc + 4 else s.pc + 2 } := rfl

theorem exec_ldDtVx (x : Reg) (s : State) : exec (.ldDtVx x) s = .next (s.setDT (s.reg x)).advance := rfl

theorem exec_ldVxDt (x : Reg) (s : State) : exec (.ldVxDt x) s = .next (s.setReg x s.dt).advance := rfl

/-- `DT` after `n` ticks, an induction over them. -/
theorem runEvents_ticks (n : Nat) (s : State) :
    ∃ t, runEvents (List.replicate n .tick) s = .next t ∧ t.dt.toNat = s.dt.toNat - n := by
  induction n generalizing s with
  | zero => exact ⟨s, rfl, rfl⟩
  | succ n ih =>
    obtain ⟨t, hrun, hdt⟩ := ih (tick s)
    refine ⟨t, hrun, ?_⟩
    rw [hdt, State.dt_tick, toNat_countDown]
    omega

end Sys2Proof.Machine
end

section
/-! PROOFS. The statements of 44_keypad_timers.md. -/

namespace Sys2Proof.Machine

/-- Settles O56. The key found is the least one held. -/
theorem waitForKey : Obligations.WaitForKey := by
  refine fun x s => ⟨fun k hk hlow => ?held, fun hnone => ?none⟩
  case held =>
    have hleast : s.leastHeld = some k := State.leastHeld_of_least hk hlow
    refine ⟨_, (execLdVxK_eq x s).trans (by rw [afterWait_of_held hleast]), ?key, fun r hr => ?others, rfl⟩
    case key => rw [State.reg_advance, State.reg_setReg_self, toNat_ofNat_key]
    case others => rw [State.reg_advance, State.reg_setReg_other s _ hr]
  case none => exact (execLdVxK_eq x s).trans (by rw [afterWait_of_none (State.leastHeld_eq_none.mpr hnone)])

/-- Settles O59. The write, the ticks and the read each touch `DT` as their own rule says. -/
theorem delayTimerReadsElapsed : Obligations.DelayTimerReadsElapsed := by
  intro x y n s
  obtain ⟨u, hticks, hdt⟩ := runEvents_ticks n (s.setDT (s.reg x)).advance
  refine ⟨_, u, _, exec_ldDtVx x s, hticks, exec_ldVxDt y u, ?_⟩
  rw [State.reg_advance, State.reg_setReg_self, hdt, State.dt_advance, State.dt_setDT]

/-- Settles O55. A value up to 15 names a key; a larger one raises the fault before the key is looked at. -/
theorem keySkips : Obligations.KeySkips := by
  refine fun x s => ⟨fun k hk => ⟨?held, ?notHeld⟩, fun t hno ht => ?fault, rfl⟩
  case held =>
    rw [exec_skp_of_key hk, State.skipIf_frame]
  case notHeld =>
    rw [exec_sknp_of_key hk, State.skipIf_frame]
    simp only [Bool.not_eq_true']
  case fault =>
    have hf : keyFault (s.reg x) = some ⟨.keyIndexOutOfRange, (s.reg x).toNat⟩ := keyFault_eq_some.mpr ⟨hno, rfl⟩
    rw [ht]
    exact ⟨exec_faults hf, exec_faults hf⟩

/-- Settles O57: each is the move its equation says. -/
theorem timerAccess : Obligations.TimerAccess := fun x s => ⟨exec_ldVxDt x s, exec_ldDtVx x s, rfl⟩

end Sys2Proof.Machine
end

section
/-! SUPPORT. Jumps, skips, calls and returns. -/

namespace Sys2Proof

/-- The low nibble of family 5 is not examined. -/
theorem decodeWord_encodeXYN_seReg (x y : Reg) (n : Nibble) :
    decodeWord (encodeXYN 0x5#4 x y n) = .ok (.seReg x y) := by
  rw [decodeWord_of_family5 (fieldF_encodeXYN _ _ _ _), fieldX_encodeXYN, fieldY_encodeXYN]

/-- The low nibble of family 9 is not examined. -/
theorem decodeWord_encodeXYN_sneReg (x y : Reg) (n : Nibble) :
    decodeWord (encodeXYN 0x9#4 x y n) = .ok (.sneReg x y) := by
  rw [decodeWord_of_family9 (fieldF_encodeXYN _ _ _ _), fieldX_encodeXYN, fieldY_encodeXYN]

end Sys2Proof

namespace Sys2Proof.Machine

theorem fetchFaults_of_gt {s : State} (hrun : s.fault = none) (hpc : 0xFFE < s.pc.toNat) : FetchFaults s :=
  step_of_unfetchable hrun hpc

theorem State.skipIf_of_true {c : Prop} [Decidable c] (s : State) (h : c) : s.skipIf c = { s with pc := s.pc + 4 } := by
  rw [State.skipIf_frame, if_pos (decide_eq_true h)]

theorem State.skipIf_of_false {c : Prop} [Decidable c] (s : State) (h : ¬ c) :
    s.skipIf c = { s with pc := s.pc + 2 } := by
  rw [State.skipIf_frame, if_neg (mt of_decide_eq_true h)]

/-- Past the last fetchable address, whichever way the skip goes. -/
theorem fetchFaults_skipIf {s : State} (hpc : s.pc = 0xFFE) (hrun : s.fault = none) (c : Bool) :
    FetchFaults (s.skipIf c) := by
  refine fetchFaults_of_gt hrun ?_
  rw [State.pc_skipIf, hpc]
  cases c <;> decide

theorem exec_seImm (x : Reg) (nn : Byte) (s : State) : exec (.seImm x nn) s = .next (s.skipIf (s.reg x = nn)) := rfl

theorem exec_sneImm (x : Reg) (nn : Byte) (s : State) : exec (.sneImm x nn) s = .next (s.skipIf (s.reg x ≠ nn)) := rfl

theorem exec_seReg (x y : Reg) (s : State) : exec (.seReg x y) s = .next (s.skipIf (s.reg x = s.reg y)) := rfl

theorem exec_sneReg (x y : Reg) (s : State) : exec (.sneReg x y) s = .next (s.skipIf (s.reg x ≠ s.reg y)) := rfl

theorem exec_jp (nnn : Addr12) (s : State) : exec (.jp nnn) s = .next (s.setPc (addressOf nnn)) := rfl

theorem exec_jpV0 (nnn : Addr12) (s : State) : exec (.jpV0 nnn) s = .next (s.setPc (offsetTarget nnn s)) := rfl

theorem exec_call_of_lt {nnn : Addr12} {s : State} (h : s.sp.toNat < 15) :
    exec (.call nnn) s = .next ((s.push s.pc).setPc (addressOf nnn)) :=
  exec_completes (not_stuck_of_sp_le (Nat.le_of_lt h) _) (faultOf_call_eq_none.mpr (Nat.ne_of_lt h))

theorem exec_ret_of_pos {s : State} (h0 : s.sp ≠ 0) (h15 : s.sp.toNat ≤ 15) :
    exec .ret s = .next (s.pop.setPc (s.top + 2)) :=
  exec_completes (not_stuck_of_sp_le h15 _) (faultOf_ret_eq_none.mpr h0)

theorem State.top_of_sp {s : State} {k : Fin 16} (h : s.sp.toNat = k.val) : s.top = s.stack[k] := by
  rw [State.top, h, Vector.getElem?_eq_getElem k.isLt]
  rfl

/-- A push and a pop, whatever `pc` becomes at each, change `pc` and the stack entries only. -/
theorem State.pop_push_frame (s : State) (w a b : Word) :
    ((s.push w).setPc a).pop.setPc b = { s with pc := b, stack := (s.push w).stack } := by
  have hsp : s.sp + 1 - 1 = s.sp := s.sp_pop_push w
  show { s with sp := s.sp + 1 - 1, pc := b, stack := (s.push w).stack } = _
  rw [hsp]

theorem getElem_stack_push_other {s : State} {k : Fin 16} (w : Word) (h : k.val ≠ s.sp.toNat + 1) :
    (s.push w).stack[k] = s.stack[k] :=
  Vector.getElem_setIfInBounds_ne k.isLt (Ne.symm h)

end Sys2Proof.Machine
end

section
/-! PROOFS. The statements of 40_control_flow.md. -/

namespace Sys2Proof.Machine

/-- Settles O26. The jump does not look at its target, so `0xFFF` faults at the fetch only. -/
theorem jumpSetsPc : Obligations.JumpSetsPc := by
  refine fun nnn s => ⟨decodeWord_encode (i := .jp nnn) rfl, exec_jp nnn s, fun hself => ?self, fun hn hrun => ?last⟩
  case self =>
    rw [exec_jp, addressOf, ← hself]
    rfl
  case last =>
    subst hn
    have hpc : 0xFFE < ((0xFFF : Addr12).setWidth 16).toNat := by decide
    exact fetchFaults_of_gt hrun hpc

/-- Settles O27. Twelve bits and eight bits add up within sixteen. -/
theorem jumpOffsetByV0 : Obligations.JumpOffsetByV0 :=
  fun nnn s => ⟨_, exec_jpV0 nnn s, toNat_offsetTarget nnn s, rfl⟩

/-- Settles O28. The entry written is the one that the new `sp` names, and `sp + 1` does not wrap. -/
theorem callPushesAndJumps : Obligations.CallPushesAndJumps := by
  intro nnn s hsp
  refine ⟨_, exec_call_of_lt hsp, toNat_add_one hsp, ?entry, fun k hk => getElem_stack_push_other s.pc hk,
    toNat_addressOf nnn, rfl⟩
  case entry => exact Vector.getElem?_setIfInBounds_self_of_lt (by omega)

/-- Settles O29. The entry on top is the one that `sp` names. -/
theorem returnPops : Obligations.ReturnPops := by
  intro s k hk hpos
  have h0 : s.sp ≠ 0 := fun e => by
    rw [e] at hk
    exact absurd hk (Nat.ne_of_lt hpos)
  refine ⟨_, exec_ret_of_pos h0 (hk.trans_le (Nat.le_of_lt_succ k.isLt)), ?target, ?sp, rfl⟩
  case target => rw [State.pc_setPc, State.top_of_sp hk]
  case sp =>
    rw [State.sp_setPc, State.sp_pop, toNat_sub_one h0]
    omega

/-- Settles O30: the two faults and the stop, as `faultOf` and `stuck` say. -/
theorem stackFaults : Obligations.StackFaults :=
  fun _ _ => ⟨fun h => exec_faults (faultOf_call_eq_some.mpr ⟨h, rfl⟩),
    fun h => exec_faults (faultOf_ret_eq_some.mpr ⟨BitVec.eq_of_toNat_eq h, rfl⟩),
    fun h => ⟨exec_stuck h, exec_stuck h⟩, rfl, rfl⟩

/-- Settles O31. The return finds on top the entry that the call has pushed. -/
theorem callThenReturn : Obligations.CallThenReturn := by
  intro nnn s hsp
  have hsp' : (s.sp + 1).toNat = s.sp.toNat + 1 := toNat_add_one hsp
  have h0 : s.sp + 1 ≠ 0 := fun e => by
    rw [e] at hsp'
    cases hsp'
  refine ⟨_, _, exec_call_of_lt hsp, exec_ret_of_pos h0 (hsp'.trans_le hsp), ?target, s.sp_pop_push s.pc,
    State.pop_push_frame s s.pc _ _⟩
  case target => exact congrArg (· + 2) (s.top_push s.pc hsp)

/-- Settles O32. Both ways on lie above the last fetchable address when `pc` is that address. -/
theorem skipIfEqualImmediate : Obligations.SkipIfEqualImmediate :=
  fun x nn s => ⟨decodeWord_encode (i := .seImm x nn) rfl,
    fun h => (exec_seImm x nn s).trans (by rw [s.skipIf_of_true h]),
    fun h => (exec_seImm x nn s).trans (by rw [s.skipIf_of_false h]),
    fun hpc hrun => ⟨_, exec_seImm x nn s, fetchFaults_skipIf hpc hrun _⟩⟩

/-- Settles O33, as for `3xnn` with the condition turned. -/
theorem skipIfNotEqualImmediate : Obligations.SkipIfNotEqualImmediate :=
  fun x nn s => ⟨decodeWord_encode (i := .sneImm x nn) rfl,
    fun h => (exec_sneImm x nn s).trans (by rw [s.skipIf_of_true h]),
    fun h => (exec_sneImm x nn s).trans (by rw [s.skipIf_of_false (not_not_intro h)]),
    fun hpc hrun => ⟨_, exec_sneImm x nn s, fetchFaults_skipIf hpc hrun _⟩⟩

/-- Settles O34. The decoder of family 5 reads `x` and `y` only. -/
theorem skipIfRegistersEqual : Obligations.SkipIfRegistersEqual :=
  fun x y s => ⟨fun h => (exec_seReg x y s).trans (by rw [s.skipIf_of_true h]),
    fun h => (exec_seReg x y s).trans (by rw [s.skipIf_of_false h]),
    (exec_seReg x x s).trans (by rw [s.skipIf_of_true rfl]), decodeWord_encodeXYN_seReg x y⟩

/-- Settles O35. The decoder of family 9 reads `x` and `y` only. -/
theorem skipIfRegistersDiffer : Obligations.SkipIfRegistersDiffer :=
  fun x y s => ⟨fun h => (exec_sneReg x y s).trans (by rw [s.skipIf_of_true h]),
    fun h => (exec_sneReg x y s).trans (by rw [s.skipIf_of_false (not_not_intro h)]),
    (exec_sneReg x x s).trans (by rw [s.skipIf_of_false (not_not_intro rfl)]), decodeWord_encodeXYN_sneReg x y⟩

end Sys2Proof.Machine
end

section
/-! SUPPORT. A result and a flag before the ordinary advance, and each flag and each result as a number. -/

namespace Sys2Proof.Machine

/-! ### The two writes -/

/-- What `8xy4` to `8xyE` leave: the flag in `VF`, the result in `Vx` unless `x = F`, and nothing else but `pc`. -/
def WritesResultThenFlag (x : Reg) (result : Byte) (flag : Bool) (s t : State) : Prop :=
  t.reg 15 = flagByte flag ∧ (x ≠ 15 → t.reg x = result) ∧ (∀ r, r ≠ x → r ≠ 15 → t.reg r = s.reg r) ∧
    t = { s with v := t.v, pc := s.pc + 2 }

theorem writesResultThenFlag (x : Reg) (result : Byte) (flag : Bool) (s : State) :
    WritesResultThenFlag x result flag s (s.writeResultThenFlag x result flag).advance := by
  refine ⟨?flag, fun hx => ?result, fun r hx hf => ?others, rfl⟩
  case flag => rw [State.reg_advance, State.reg_writeResultThenFlag, if_pos rfl]
  case result => rw [State.reg_advance, State.reg_writeResultThenFlag, if_neg hx, if_pos rfl]
  case others => rw [State.reg_advance, State.reg_writeResultThenFlag, if_neg hf, if_neg hx]

theorem exec_addReg (x y : Reg) (s : State) :
    exec (.addReg x y) s = .next (s.writeResultThenFlag x (trunc8 ((s.reg x).toNat + (s.reg y).toNat))
      (carryOut (s.reg x) (s.reg y))).advance := rfl

theorem exec_sub (x y : Reg) (s : State) :
    exec (.sub x y) s = .next (s.writeResultThenFlag x (trunc8 ((s.reg x).toNat + 256 - (s.reg y).toNat))
      (notBorrow (s.reg x) (s.reg y))).advance := rfl

theorem exec_subn (x y : Reg) (s : State) :
    exec (.subn x y) s = .next (s.writeResultThenFlag x (trunc8 ((s.reg y).toNat + 256 - (s.reg x).toNat))
      (notBorrow (s.reg y) (s.reg x))).advance := rfl

theorem exec_shr (x y : Reg) (s : State) :
    exec (.shr x y) s = .next (s.writeResultThenFlag x (s.reg x >>> 1) (bitOutRight (s.reg x))).advance := rfl

theorem exec_shl (x y : Reg) (s : State) :
    exec (.shl x y) s = .next (s.writeResultThenFlag x (s.reg x <<< 1) (bitOutLeft (s.reg x))).advance := rfl

theorem exec_rnd (x : Reg) (nn : Byte) (s : State) :
    exec (.rnd x nn) s = .next ((s.setReg x (Config.rndByte s.draws &&& nn)).countDraw).advance := rfl

theorem exec_addI (x : Reg) (s : State) :
    exec (.addI x) s = .next (s.setI (indexPlus s.i (s.reg x))).advance := rfl

theorem exec_ldF (x : Reg) (s : State) : exec (.ldF x) s = .next (s.setI (glyphAddress (s.reg x))).advance := rfl

/-! ### Flags and results as numbers -/

theorem flagByte_decide (p : Prop) [Decidable p] : flagByte (decide p) = if p then 1 else 0 := by
  by_cases h : p <;> simp [flagByte, h]

/-- A difference modulo 256, from the form in which nothing is negative. -/
theorem trunc8_sub (a b : Byte) : trunc8 (a.toNat + 256 - b.toNat) = a - b := by
  have ha := a.isLt
  have hb := b.isLt
  apply BitVec.eq_of_toNat_eq
  rw [toNat_trunc8, BitVec.toNat_sub]
  congr 1
  omega

theorem toNat_flagByte (b : Bool) : (flagByte b).toNat = b.toNat := by
  cases b <;> rfl

theorem toNat_bitOutRight (a : Byte) : (bitOutRight a).toNat = a.toNat % 2 := by
  rw [bitOutRight, BitVec.getLsbD, Nat.toNat_testBit, Nat.pow_zero, Nat.div_one]

theorem toNat_bitOutLeft (a : Byte) : (bitOutLeft a).toNat = a.toNat / 128 := by
  have ha := a.isLt
  rw [bitOutLeft, BitVec.getLsbD, Nat.toNat_testBit]
  omega

theorem toNat_shiftRight_one (a : Byte) : (a >>> 1).toNat = a.toNat / 2 := by
  rw [BitVec.toNat_ushiftRight, Nat.shiftRight_eq_div_pow, Nat.pow_one]

theorem toNat_shiftLeft_one (a : Byte) : (a <<< 1).toNat = a.toNat * 2 % 256 := by
  rw [BitVec.toNat_shiftLeft, Nat.shiftLeft_eq, Nat.pow_one]

/-- The bits outside a mask are 0. -/
theorem and_mask_and_not (r nn : Byte) : r &&& nn &&& ~~~nn = 0 := by
  rw [BitVec.and_assoc, BitVec.and_not_self]
  exact BitVec.and_zero

theorem toNat_indexPlus (i : Word) (b : Byte) : (indexPlus i b).toNat = (i.toNat + b.toNat) % 65536 := by
  rw [indexPlus, BitVec.toNat_add, BitVec.toNat_setWidth_of_le (by decide)]

theorem toNat_glyphAddress (b : Byte) : (glyphAddress b).toNat = b.toNat * 5 := by
  have hb := b.isLt
  rw [glyphAddress, BitVec.toNat_mul, BitVec.toNat_setWidth_of_le (by decide)]
  exact Nat.mod_eq_of_lt (show b.toNat * 5 < 65536 by omega)

end Sys2Proof.Machine
end

section
/-! PROOFS. The statements of 41_alu.md: copy, logic, arithmetic, shifts and the random byte. -/

namespace Sys2Proof.Machine

/-- Settles O38: each is one register write and the advance, so `VF` is written only when it is `Vx`. -/
theorem copyAndLogic : Obligations.CopyAndLogic :=
  fun x _ s => ⟨congrArg Host.Outcome.next (s.advance_setReg x _), congrArg Host.Outcome.next (s.advance_setReg x _),
    congrArg Host.Outcome.next (s.advance_setReg x _), congrArg Host.Outcome.next (s.advance_setReg x _)⟩

/-- Settles O39. Both operands are read before the first write, so `x = F` and `y = F` are no special cases. -/
theorem addWithCarry : Obligations.AddWithCarry := by
  intro x y s
  obtain ⟨hflag, hresult, hothers, hframe⟩ :=
    writesResultThenFlag x (trunc8 ((s.reg x).toNat + (s.reg y).toNat)) (carryOut (s.reg x) (s.reg y)) s
  refine ⟨_, exec_addReg x y s, hflag.trans (flagByte_decide _), fun hx => ?sum, hothers, hframe⟩
  case sum => rw [hresult hx, toNat_trunc8]

/-- Settles O40. Adding 256 before subtracting is subtraction modulo 256. -/
theorem subtractions : Obligations.Subtractions := by
  refine fun x y s => ⟨⟨_, exec_sub x y s, ?sub⟩, ⟨_, exec_subn x y s, ?subn⟩⟩
  case sub =>
    obtain ⟨hflag, hresult, hothers, hframe⟩ := writesResultThenFlag x _ (notBorrow (s.reg x) (s.reg y)) s
    exact ⟨hflag.trans (flagByte_decide _), fun hx => (hresult hx).trans (trunc8_sub _ _), hothers, hframe⟩
  case subn =>
    obtain ⟨hflag, hresult, hothers, hframe⟩ := writesResultThenFlag x _ (notBorrow (s.reg y) (s.reg x)) s
    exact ⟨hflag.trans (flagByte_decide _), fun hx => (hresult hx).trans (trunc8_sub _ _), hothers, hframe⟩

/-- Settles O41. The bit shifted out is read from `Vx` before the result is written. -/
theorem shifts : Obligations.Shifts := by
  refine fun x y s => ⟨⟨_, exec_shr x y s, ?shr⟩, ⟨_, exec_shl x y s, ?shl⟩⟩
  case shr =>
    obtain ⟨hflag, hresult, hothers, hframe⟩ := writesResultThenFlag x (s.reg x >>> 1) (bitOutRight (s.reg x)) s
    refine ⟨?bit, fun hx => ?half, hothers, hframe⟩
    case bit => rw [hflag, toNat_flagByte, toNat_bitOutRight]
    case half => rw [hresult hx, toNat_shiftRight_one]
  case shl =>
    obtain ⟨hflag, hresult, hothers, hframe⟩ := writesResultThenFlag x (s.reg x <<< 1) (bitOutLeft (s.reg x)) s
    refine ⟨?bit, fun hx => ?double, hothers, hframe⟩
    case bit => rw [hflag, toNat_flagByte, toNat_bitOutLeft]
    case double => rw [hresult hx, toNat_shiftLeft_one]

/-- Settles O42. The free byte is the one at the counter's old value. -/
theorem randomUnderMask : Obligations.RandomUnderMask := by
  intro x nn s
  have hx : (s.setReg x (Config.rndByte s.draws &&& nn)).countDraw.advance.reg x = Config.rndByte s.draws &&& nn := by
    rw [State.reg_advance, State.reg_countDraw, State.reg_setReg_self]
  refine ⟨_, _, exec_rnd x nn s, hx, ?outside, fun hnn => ?zero, fun hnn => ?all, rfl, fun q hq => ?others, rfl⟩
  case outside => rw [hx, and_mask_and_not]
  case zero => rw [hx, hnn]; exact BitVec.and_zero
  case all => rw [hx, hnn]; exact BitVec.and_allOnes
  case others => rw [State.reg_advance, State.reg_countDraw, State.reg_setReg_other s _ hq]

end Sys2Proof.Machine
end

section
/-! PROOFS. The statements of 42_index_memory.md: index arithmetic; and of 70_reset_and_hazards.md: the reset state. -/

namespace Sys2Proof.Machine

/-- Settles O44. Only the first of the two sums can wrap. -/
theorem indexArithmetic : Obligations.IndexArithmetic :=
  fun x s => ⟨⟨_, exec_addI x s, toNat_indexPlus s.i (s.reg x), rfl⟩,
    ⟨_, exec_ldF x s, toNat_glyphAddress (s.reg x), rfl⟩⟩

/-- The font table in the memory of the reset state, glyph by glyph and row by row. -/
theorem read_reset_font : ∀ g < 16, ∀ j < 5,
    (State.reset.mem.read (5 * g + j)).toNat = (fontRows.getD g 0 / 256 ^ (4 - j)) % 256 := by
  decide

theorem read_reset_above_font {a : Nat} (h : 80 ≤ a) : State.reset.mem.read a = 0 := by
  have hlen : font.length = 80 := by decide
  show Memory.unlisted a = 0
  rw [Memory.unlisted, List.getElem?_eq_none (hlen.trans_le h)]
  rfl

/-- Settles O45. Glyph `g` begins at `5 * g` in the font table, which is what the instruction computes. -/
theorem glyphAddressFindsGlyph : Obligations.GlyphAddressFindsGlyph := by
  intro x g s hfont hx hg
  refine ⟨_, exec_ldF x s, fun j hj => ?row⟩
  case row =>
    rw [State.mem_advance, State.mem_setI, State.i_advance, State.i_setI, toNat_glyphAddress, hx, hfont _ (by omega),
      Nat.mul_comm]
    exact read_reset_font g hg j hj

/-- Settles O12, field by field. -/
theorem resetState : Obligations.ResetState := by
  refine ⟨by decide, rfl, rfl, rfl, by decide, rfl, rfl, read_reset_font, fun a ha => read_reset_above_font ha,
    by decide, fun j _ => Framebuffer.cell_blank j, rfl, rfl, fun s => applyEvent_reset s⟩

end Sys2Proof.Machine
end
